-- ==== Sys2Proof/Word.lean ====
section
/-! DEFINITION. The two word types of the engine (00_scope.md rules R6 and R7): all values are unsigned. -/

namespace Sys2Proof

/-- A byte: a register, a memory cell, an opcode, an operand (R7, R22, R50). -/
abbrev Byte := BitVec 8

/-- A program-counter value: 9 bits, so that 256 is kept apart from 0 (R28). -/
abbrev Pc := BitVec 9

end Sys2Proof
end

