-- ==== Sys2Proof/Config.lean ====
section
/-! DEFINITION. The implementation parameters of 00_scope.md rule R6. Every one is fixed by the spec, and the spec
leaves no value open (93_implementation_defined.md), so there is no free value here. -/

namespace Sys2Proof.Config

/-- `MEM_SIZE`, the number of memory cells; addresses are 0 to 255 (R6, R50). -/
@[simp] abbrev memSize : Nat := 256

/-- `PC_RESET` (R6, R40). -/
@[simp] abbrev pcReset : Pc := 0

/-- The address `load` starts at (R6, R60, R232). -/
@[simp] abbrev loadBase : Nat := 0

/-- What a cell nobody has written holds: memory is zero-initialised (R40, R50). -/
@[simp] abbrev unwrittenCell : Byte := 0

/-- The longest instruction, in bytes (R80). -/
@[simp] abbrev longestInstr : Nat := 3

end Sys2Proof.Config
end

