-- ==== Sys2Proof/Syntax.lean ====
section
/-! DEFINITION. The 13 instructions of 30_encoding.md rule R86, in the order of the opcode table. -/

namespace Sys2Proof

/-- One constructor per row of spec/opcode_table.json. Operands are the operand bytes as they are fetched (R80): a
register-index byte may hold any value 0 to 255, since a byte above 7 is an instruction that faults when it is executed
(R82, R114), not an illegal encoding. -/
inductive Instr where
  /-- 0x01, format Z (R116). -/
  | hlt
  /-- 0x82, format RI (R130). -/
  | ldi (reg imm8 : Byte)
  /-- 0x47, format R (R131). -/
  | prn (reg : Byte)
  /-- 0xA2, format RR (R140). -/
  | mul (regA regB : Byte)
  /-- 0xA0, format RR (R141). -/
  | add (regA regB : Byte)
  /-- 0x45, format R (R150). -/
  | push (reg : Byte)
  /-- 0x46, format R (R151). -/
  | pop (reg : Byte)
  /-- 0x50, format R (R160). -/
  | call (reg : Byte)
  /-- 0x11, format Z (R161). -/
  | ret
  /-- 0xA7, format RR (R170). -/
  | cmp (regA regB : Byte)
  /-- 0x54, format R (R171). -/
  | jmp (reg : Byte)
  /-- 0x55, format R (R172). -/
  | jeq (reg : Byte)
  /-- 0x56, format R (R173). -/
  | jne (reg : Byte)
deriving DecidableEq, Repr

end Sys2Proof
end

