-- ==== Sys2Proof/WellFormed.lean ====
section
/-! DEFINITION. Which instructions have only legal operand bytes (30_encoding.md rules R80 and R82). -/

namespace Sys2Proof

/-- A register-index byte is legal from 0 to 7 (R82). -/
def regByteLegal (b : Byte) : Bool := decide (b.toNat ≤ 7)

/-- The register-index bytes of an instruction, first operand first (R80). LDI's second byte is an immediate, for which
every value is legal (R83). -/
def Instr.regBytes : Instr → List Byte
  | .hlt => []
  | .ldi reg _ => [reg]
  | .prn reg => [reg]
  | .mul regA regB => [regA, regB]
  | .add regA regB => [regA, regB]
  | .push reg => [reg]
  | .pop reg => [reg]
  | .call reg => [reg]
  | .ret => []
  | .cmp regA regB => [regA, regB]
  | .jmp reg => [reg]
  | .jeq reg => [reg]
  | .jne reg => [reg]

/-- Every register-index byte selects a register. An instruction that is not well formed still has a meaning: it
raises `OutOfBounds` (R114). -/
def Instr.wellFormed (i : Instr) : Bool := i.regBytes.all regByteLegal

end Sys2Proof
end

