-- ==== Sys2Proof/Decode.lean ====
section
/-! DEFINITION. The decoder and the encoder (30_encoding.md). The decoder compares all 8 bits of the opcode byte with the
table (R84) and takes no behaviour from bits 5:0 (R85). -/

namespace Sys2Proof

/-- What an opcode byte asks for: no operand byte (format Z), one (format R), or two (formats RR and RI) (R80). -/
inductive Form where
  | zero (i : Instr)
  | one (mk : Byte → Instr)
  | two (mk : Byte → Byte → Instr)

/-- Why a byte sequence is no instruction. -/
inductive DecodeError where
  /-- There is no opcode byte. -/
  | noOpcode
  /-- The opcode byte is none of the 13 defined ones (R88). -/
  | illegalOpcode (op : Byte)
  /-- The opcode is defined and its `k`-th operand byte is missing (R80). -/
  | missingOperand (k : Nat)
deriving DecidableEq, Repr

/-- The opcode map sorted by byte value (R87); every other byte is illegal (R88). -/
def opcodeForm (op : Byte) : Option Form :=
  match op with
  | 0x01#8 => some (.zero .hlt)
  | 0x11#8 => some (.zero .ret)
  | 0x45#8 => some (.one .push)
  | 0x46#8 => some (.one .pop)
  | 0x47#8 => some (.one .prn)
  | 0x50#8 => some (.one .call)
  | 0x54#8 => some (.one .jmp)
  | 0x55#8 => some (.one .jeq)
  | 0x56#8 => some (.one .jne)
  | 0x82#8 => some (.two .ldi)
  | 0xA0#8 => some (.two .add)
  | 0xA2#8 => some (.two .mul)
  | 0xA7#8 => some (.two .cmp)
  | _ => none

/-- `op[7:6]`, the operand count of a defined opcode (R81). -/
def operandCount (op : Byte) : Nat := op.toNat / 64

/-- The instruction at the head of a byte sequence, and what follows it. The look-up comes before any operand byte
(R112), the first operand at the lower address (R58, R80). -/
def decode : List Byte → Except DecodeError (Instr × List Byte)
  | [] => .error .noOpcode
  | op :: rest =>
    match opcodeForm op, rest with
    | none, _ => .error (.illegalOpcode op)
    | some (.zero i), rest => .ok (i, rest)
    | some (.one _), [] => .error (.missingOperand 1)
    | some (.one mk), b1 :: rest => .ok (mk b1, rest)
    | some (.two _), [] => .error (.missingOperand 1)
    | some (.two _), [_] => .error (.missingOperand 2)
    | some (.two mk), b1 :: b2 :: rest => .ok (mk b1 b2, rest)

/-- The bytes of an instruction: the opcode byte of R86, then one byte per operand in written order (R94). -/
def encode : Instr → List Byte
  | .hlt => [0x01]
  | .ldi reg imm8 => [0x82, reg, imm8]
  | .prn reg => [0x47, reg]
  | .mul regA regB => [0xA2, regA, regB]
  | .add regA regB => [0xA0, regA, regB]
  | .push reg => [0x45, reg]
  | .pop reg => [0x46, reg]
  | .call reg => [0x50, reg]
  | .ret => [0x11]
  | .cmp regA regB => [0xA7, regA, regB]
  | .jmp reg => [0x54, reg]
  | .jeq reg => [0x55, reg]
  | .jne reg => [0x56, reg]

/-- The `n` lowest bytes of `w`, bits 7:0 first: the order the opcode table numbers them in and memory holds them in. -/
def lowBytes : Nat → Nat → List Byte
  | 0, _ => []
  | n + 1, w => BitVec.ofNat 8 w :: lowBytes n (w / 256)

/-- The bytes a word of the opcode table stands for: its `nbits` bits, zeros above, up to the longest instruction. -/
def tableBytes (nbits w : Nat) : List Byte := lowBytes Config.longestInstr (w % 2 ^ nbits)

/-- What the decoder reads from a word of the opcode table, none where it refuses. -/
def decodeTableWord (nbits w : Nat) : Option Instr :=
  match decode (tableBytes nbits w) with
  | .ok (i, _) => some i
  | .error _ => none

end Sys2Proof
end

