-- ==== Sys2Proof/Machine/State.lean ====
section
/-! DEFINITION. The architectural state (10_state.md rule R20: exactly six items, nothing else is state), its reset
value (R40), and the reasons a step can stop. -/

namespace Sys2Proof.Machine

/-- The eight register names (R21). `r7` is also SP and `r6` is also FL; no register is hard-wired. -/
inductive Reg where
  | r0 | r1 | r2 | r3 | r4 | r5 | r6 | r7
deriving DecidableEq, Repr

/-- Second name of R6, the flags register (R8, R21). -/
abbrev Reg.fl : Reg := .r6

/-- Second name of R7, the stack pointer (R8, R21). -/
abbrev Reg.sp : Reg := .r7

/-- The register file: eight 8-bit registers (R21, R22). -/
structure RegFile where
  r0 : Byte
  r1 : Byte
  r2 : Byte
  r3 : Byte
  r4 : Byte
  r5 : Byte
  r6 : Byte
  r7 : Byte
deriving DecidableEq, Repr

/-- The 256 memory cells (R50) as the list of those that do not hold 0. -/
abbrev Memory := List Host.Cell

/-- The canonical form of memory: addresses strictly rising and within 0 to 255, no cell listed that holds what an
unlisted one reads as. -/
abbrev Memory.wf (m : Memory) : Prop :=
  m.Pairwise (fun c d => c.1 < d.1) ∧ ∀ c ∈ m, c.1 < Config.memSize ∧ c.2 ≠ Config.unwrittenCell

/-- The run state (R33). RunningFlag is `runState = running` (R34). -/
inductive RunState where
  | ready | running | halted | faulted
deriving DecidableEq, Repr

/-- The error value the engine records when an instruction faults (R35, R190). -/
inductive FaultRecord where
  /-- The opcode byte `op`, read from address `loc`, is not defined (R191). -/
  | illegalInstruction (op : Byte) (loc : Nat)
  /-- The integer `a` is outside the range it was about to be used in (R192). -/
  | outOfBounds (a : Int)
deriving DecidableEq, Repr

/-- The architectural state, R20's items in its order. -/
structure State where
  /-- `x[0..7]` (R21). -/
  regs : RegFile
  /-- The program counter (R28). -/
  pc : Pc
  /-- `mem[0..255]` (R50). -/
  mem : Memory
  /-- `state` (R33). -/
  runState : RunState
  /-- `fault` (R35). -/
  fault : Option FaultRecord
  /-- `out`, oldest value first (R37). -/
  out : List Byte
deriving DecidableEq, Repr

/-- The state after reset (R40, R230). -/
def State.reset : State where
  regs := ⟨0, 0, 0, 0, 0, 0, 0, 0⟩
  pc := Config.pcReset
  mem := []
  runState := .ready
  fault := none
  out := []

/-- Why a step answers no next state: the engine steps only while Running (R110). An instruction that raises a fault of
the machine does not stop here: it answers a next state whose run state is Faulted (R198). -/
inductive Fault where
  /-- Raised by `step` alone, in Ready: `run()` has not been called (R110, R234). Safe: the engine has no step there. -/
  | notStarted
  /-- Raised by `step` alone, in Halted, which is terminal (R33, R110). Safe: the engine has no step there. -/
  | alreadyHalted
  /-- Raised by `step` alone, in Faulted, which is terminal (R33, R110, R201). Safe: the engine has no step there. -/
  | alreadyFaulted
deriving DecidableEq, Repr

/-- Why an instruction has no meaning in the model. -/
inductive Refusal where
  /-- Reserved for an arm of `exec` whose instruction has no meaning yet. Raised by no arm: all 13 are modelled. Safe. -/
  | notModelled (mnemonic : String)
deriving DecidableEq, Repr

end Sys2Proof.Machine
end

