-- ==== Sys2Proof/Machine/Ops.lean ====
section
/-! DEFINITION. The named operations over registers, memory, the program counter and the output stream
(00_scope.md rule R8), taking a fault (60_exceptions.md rule R198), and the stack pointer's checked arithmetic
(43_stack.md rule R152). There is no return from a fault to stand beside `takeFault`: only reset leaves Faulted (R201),
and that is `hostReset` of Machine/HostOps.lean. -/

namespace Sys2Proof.Machine

/-- The outcome type of `exec` and `step`. -/
abbrev Result := Host.Outcome State Fault Refusal

/-! ### Registers (R8, R21) -/

def RegFile.get (f : RegFile) : Reg → Byte
  | .r0 => f.r0
  | .r1 => f.r1
  | .r2 => f.r2
  | .r3 => f.r3
  | .r4 => f.r4
  | .r5 => f.r5
  | .r6 => f.r6
  | .r7 => f.r7

def RegFile.set (f : RegFile) (r : Reg) (v : Byte) : RegFile :=
  match r with
  | .r0 => { f with r0 := v }
  | .r1 => { f with r1 := v }
  | .r2 => { f with r2 := v }
  | .r3 => { f with r3 := v }
  | .r4 => { f with r4 := v }
  | .r5 => { f with r5 := v }
  | .r6 => { f with r6 := v }
  | .r7 => { f with r7 := v }

/-- `x[i]` (R8). -/
def State.x (s : State) (r : Reg) : Byte := s.regs.get r

/-- `x[i] <- v` (R8). Every register takes every write, R6 and R7 included (R26). -/
def State.setX (s : State) (r : Reg) (v : Byte) : State := { s with regs := s.regs.set r v }

/-! ### Program counter (R28, R29) -/

/-- `zext_9(v)` (R8). -/
def zext9 (v : Byte) : Pc := v.setWidth 9

/-- `pc <- t` (R8). -/
def State.setPc (s : State) (t : Pc) : State := { s with pc := t }

/-- `pc <- pc + n` (R29, R115). The sum is the integer sum wherever an instruction can be fetched (R28, log 3). -/
def State.advance (s : State) (n : Nat) : State := s.setPc (s.pc + BitVec.ofNat 9 n)

/-! ### Memory (R50, R53, R54) -/

/-- The cell at an address: the listed byte, else what an unwritten cell holds (R40, R50). -/
def Memory.read : Memory → Nat → Byte
  | [], _ => Config.unwrittenCell
  | c :: m, a => if c.1 = a then c.2 else Memory.read m a

/-- Puts a cell into a list whose addresses rise, before the first higher address. -/
def Memory.insert : Memory → Nat → Byte → Memory
  | [], a, v => [(a, v)]
  | c :: m, a, v => if c.1 < a then c :: Memory.insert m a v else (a, v) :: c :: m

/-- Writes one cell and keeps the canonical form: a cell that takes the unwritten value is not listed. -/
def Memory.write (m : Memory) (a : Nat) (v : Byte) : Memory :=
  if v = Config.unwrittenCell then m.filter (fun c => c.1 ≠ a)
  else Memory.insert (m.filter (fun c => c.1 ≠ a)) a v

/-- Writes the bytes at consecutive addresses from `a`, those that lie within memory. -/
def Memory.writeBytes : Memory → Nat → List Byte → Memory
  | m, _, [] => m
  | m, a, b :: bs => Memory.writeBytes (if a < Config.memSize then m.write a b else m) (a + 1) bs

/-- The state with another memory. -/
def State.setMem (s : State) (m : Memory) : State := { s with mem := m }

/-- `MemRead(a, 1)` (R53). -/
def memRead (s : State) (a : Int) : Except FaultRecord Byte :=
  if a < 0 ∨ a > 255 then .error (.outOfBounds a) else .ok (s.mem.read a.toNat)

/-- `MemWrite(a, 1, v)` (R54). -/
def memWrite (s : State) (a : Int) (v : Byte) : Except FaultRecord State :=
  if a < 0 ∨ a > 255 then .error (.outOfBounds a) else .ok (s.setMem (s.mem.write a.toNat v))

/-! ### Output and run state (R33, R37) -/

/-- `out <- out ++ [v]` (R8, R37). -/
def State.emit (s : State) (v : Byte) : State := { s with out := s.out ++ [v] }

/-- `state <- Halted` (R116). -/
def State.halt (s : State) : State := { s with runState := .halted }

/-! ### Taking a fault (R198, R199) -/

/-- `fault <- F; state <- Faulted`, and nothing else (R198). -/
def State.takeFault (s : State) (f : FaultRecord) : State := { s with fault := some f, runState := .faulted }

/-- How an instruction started in `s` ends: with the state it computed, or, where it raised a fault, with that fault
taken in `s` itself, so that a faulting instruction has written nothing (R199). -/
def complete (s : State) (r : Except FaultRecord State) : Result :=
  match r with
  | .ok t => .next t
  | .error f => .next (s.takeFault f)

/-! ### The stack pointer's own arithmetic (R152) -/

/-- `if x[7] = 0: raise OutOfBounds(-1)`, else `x[7] <- x[7] - 1` (R150, R152, R160). -/
def spDecrement (s : State) : Except FaultRecord State :=
  if s.x .sp = 0 then .error (.outOfBounds (-1)) else .ok (s.setX .sp (s.x .sp - 1))

/-- `if x[7] = 255: raise OutOfBounds(256)`, else `x[7] <- x[7] + 1` (R151, R152, R161). -/
def spIncrement (s : State) : Except FaultRecord State :=
  if s.x .sp = 255 then .error (.outOfBounds 256) else .ok (s.setX .sp (s.x .sp + 1))

/-- `MemWrite(x[7], 1, v)` (R150, R160). -/
def storeAtSp (s : State) (v : Byte) : Except FaultRecord State := memWrite s (s.x .sp).toNat v

/-- `MemRead(x[7], 1)` (R151, R161). -/
def loadAtSp (s : State) : Except FaultRecord Byte := memRead s (s.x .sp).toNat

/-- CALL's return address `pc + 2`, one byte: `if pc + 2 > 255: raise OutOfBounds(pc + 2)` (R160). -/
def returnAddress (s : State) : Except FaultRecord Byte :=
  if s.pc.toNat + 2 > 255 then .error (.outOfBounds (s.pc.toNat + 2 : Nat)) else .ok (BitVec.ofNat 8 (s.pc.toNat + 2))

end Sys2Proof.Machine
end

