-- ==== Sys2Proof/Machine/Operands.lean ====
section
/-! DEFINITION. The operand forms (30_encoding.md rules R82 and R83): a register-index byte, used whole and checked
(10_state.md rule R24), and an immediate byte, used as it is, for which nothing needs to be defined. -/

namespace Sys2Proof.Machine

/-- The index of a register, 0 to 7 (R21). -/
def Reg.index : Reg → Nat
  | .r0 => 0
  | .r1 => 1
  | .r2 => 2
  | .r3 => 3
  | .r4 => 4
  | .r5 => 5
  | .r6 => 6
  | .r7 => 7

/-- The operand byte that selects a register: `Rn` is the byte `n` (R94). -/
def Reg.byte (r : Reg) : Byte := BitVec.ofNat 8 r.index

/-- `RegIndex(b)`: the register `b` selects, else `raise OutOfBounds(b)` (R24, R82). The whole byte is the index. -/
def regIndex (b : Byte) : Except FaultRecord Reg :=
  match b with
  | 0#8 => .ok .r0
  | 1#8 => .ok .r1
  | 2#8 => .ok .r2
  | 3#8 => .ok .r3
  | 4#8 => .ok .r4
  | 5#8 => .ok .r5
  | 6#8 => .ok .r6
  | 7#8 => .ok .r7
  | _ => .error (.outOfBounds b.toNat)

/-- The two register operands of format RR, validated first then second (R114). -/
def regIndexes (b1 b2 : Byte) : Except FaultRecord (Reg × Reg) := do
  let ra ← regIndex b1
  let rb ← regIndex b2
  return (ra, rb)

end Sys2Proof.Machine
end

