-- ==== Sys2Proof/Machine/Arithmetic.lean ====
section
/-! DEFINITION. MUL and ADD (42_arithmetic.md): the exact unsigned result, reduced modulo 256 (rule R142). -/

namespace Sys2Proof.Machine

/-- `n mod 256` as a byte (R8, R142). -/
def mod256 (n : Nat) : Byte := BitVec.ofNat 8 n

/-- MUL regA, regB: `x[b1] <- (x[b1] * x[b2]) mod 256; pc <- pc + 3`; no flag (R140). -/
def execMul (b1 b2 : Byte) (s : State) : Result := complete s do
  let (ra, rb) ← regIndexes b1 b2
  return (s.setX ra (mod256 ((s.x ra).toNat * (s.x rb).toNat))).advance 3

/-- ADD regA, regB: `x[b1] <- (x[b1] + x[b2]) mod 256; pc <- pc + 3`; no flag (R141). -/
def execAdd (b1 b2 : Byte) (s : State) : Result := complete s do
  let (ra, rb) ← regIndexes b1 b2
  return (s.setX ra (mod256 ((s.x ra).toNat + (s.x rb).toNat))).advance 3

end Sys2Proof.Machine
end

