-- ==== Sys2Proof/Machine/Flags.lean ====
section
/-! DEFINITION. The flags, which live in register R6 (10_state.md rule R31): the three one-hot patterns, what CMP
computes (45_compare_branch.md rule R170), and the bit JEQ and JNE test (R172, R173). No other instruction computes a
flag: ADD and MUL produce none (R31, R140, R141). -/

namespace Sys2Proof.Machine

/-- Pattern E, bit 0 (R31). -/
def flagEqual : Byte := 0x01

/-- Pattern G, bit 1 (R31). -/
def flagGreater : Byte := 0x02

/-- Pattern L, bit 2 (R31). -/
def flagLess : Byte := 0x04

/-- The pattern CMP writes for left value `a` and right value `b`, compared as unsigned numbers (R170). -/
def compareFlags (a b : Byte) : Byte :=
  if a = b then flagEqual else if a.toNat < b.toNat then flagLess else flagGreater

/-- Bit 0 of R6, the E flag, as JEQ and JNE test it (R172, R173). -/
def State.equalFlag (s : State) : Bool := (s.x .fl).getLsbD 0

end Sys2Proof.Machine
end

