-- ==== Sys2Proof/Machine/CompareBranch.lean ====
section
/-! DEFINITION. CMP, JMP, JEQ and JNE (45_compare_branch.md). -/

namespace Sys2Proof.Machine

/-- CMP regA, regB: all 8 bits of R6 take one of the three patterns; both operands are read before (R170). -/
def execCmp (b1 b2 : Byte) (s : State) : Result := complete s do
  let (ra, rb) ← regIndexes b1 b2
  return (s.setX .fl (compareFlags (s.x ra) (s.x rb))).advance 3

/-- JMP reg: `pc <- x[b1]` (R171). -/
def execJmp (b1 : Byte) (s : State) : Result := complete s do
  let r ← regIndex b1
  return s.setPc (zext9 (s.x r))

/-- JEQ reg: jumps if bit 0 of R6 is 1, else `pc <- pc + 2`; the index is validated either way (R114, R172). -/
def execJeq (b1 : Byte) (s : State) : Result := complete s do
  let r ← regIndex b1
  return if s.equalFlag then s.setPc (zext9 (s.x r)) else s.advance 2

/-- JNE reg: jumps if bit 0 of R6 is 0, else `pc <- pc + 2`; the index is validated either way (R114, R173). -/
def execJne (b1 : Byte) (s : State) : Result := complete s do
  let r ← regIndex b1
  return if s.equalFlag then s.advance 2 else s.setPc (zext9 (s.x r))

end Sys2Proof.Machine
end

