-- ==== Sys2Proof/Machine/LoadPrint.lean ====
section
/-! DEFINITION. LDI and PRN (41_load_and_print.md) and HLT (40_dispatch_and_halt.md rule R116). -/

namespace Sys2Proof.Machine

/-- HLT: `state <- Halted`; `pc` is not written (R116). -/
def execHlt (s : State) : Result := complete s (.ok s.halt)

/-- LDI reg, imm8: `x[b1] <- b2; pc <- pc + 3` (R130). -/
def execLdi (b1 b2 : Byte) (s : State) : Result := complete s do
  let r ← regIndex b1
  return (s.setX r b2).advance 3

/-- PRN reg: `out <- out ++ [x[b1]]; pc <- pc + 2` (R131). -/
def execPrn (b1 : Byte) (s : State) : Result := complete s do
  let r ← regIndex b1
  return (s.emit (s.x r)).advance 2

end Sys2Proof.Machine
end

