-- ==== Sys2Proof/Machine/Stack.lean ====
section
/-! DEFINITION. PUSH and POP (43_stack.md), CALL and RET (44_call_return.md). The statements of each rule run in the order
it writes them, so that `PUSH R7`, `POP R7` and `CALL R7` see the stack pointer as the rules say. -/

namespace Sys2Proof.Machine

/-- PUSH reg: decrement SP, then `mem[SP] <- x[b1]`, the register read after the decrement (R150). -/
def execPush (b1 : Byte) (s : State) : Result := complete s do
  let r ← regIndex b1
  let s1 ← spDecrement s
  let s2 ← storeAtSp s1 (s1.x r)
  return s2.advance 2

/-- POP reg: `x[b1] <- mem[SP]`, then increment SP, for `POP R7` the SP just written (R151). -/
def execPop (b1 : Byte) (s : State) : Result := complete s do
  let r ← regIndex b1
  let v ← loadAtSp s
  let s1 ← spIncrement (s.setX r v)
  return s1.advance 2

/-- CALL reg: decrement SP, then `mem[SP] <- pc + 2`, then `pc <- x[b1]`, the register read after the decrement
(R160). -/
def execCall (b1 : Byte) (s : State) : Result := complete s do
  let r ← regIndex b1
  let s1 ← spDecrement s
  let ra ← returnAddress s
  let s2 ← storeAtSp s1 ra
  return s2.setPc (zext9 (s2.x r))

/-- RET: `pc <- mem[SP]`, then increment SP (R161). -/
def execRet (s : State) : Result := complete s do
  let v ← loadAtSp s
  let s1 ← spIncrement s
  return s1.setPc (zext9 v)

end Sys2Proof.Machine
end

