-- ==== Sys2Proof/Machine/Cycle.lean ====
section
/-! DEFINITION. Fetching an instruction and running it: one pass of the loop body (40_dispatch_and_halt.md rule R117). -/

namespace Sys2Proof.Machine

/-- Opcode fetch, look-up and operand fetch, in that order, each read checked on its own (R111, R112, R113). -/
def fetch (s : State) : Except FaultRecord Instr := do
  let op ← memRead s s.pc.toNat
  match opcodeForm op with
  | none => .error (.illegalInstruction op s.pc.toNat)
  | some (.zero i) => return i
  | some (.one mk) =>
    let b1 ← memRead s (s.pc.toNat + 1 : Nat)
    return mk b1
  | some (.two mk) =>
    let b1 ← memRead s (s.pc.toNat + 1 : Nat)
    let b2 ← memRead s (s.pc.toNat + 2 : Nat)
    return mk b1 b2

/-- One cycle of a running engine: the fetched instruction is executed, or the fault the fetch raised is taken (R117). -/
def cycle (s : State) : Result :=
  match fetch s with
  | .ok i => exec i s
  | .error f => complete s (.error f)

end Sys2Proof.Machine
end

