-- ==== Sys2Proof/Machine/Step.lean ====
section
/-! DEFINITION. The step (40_dispatch_and_halt.md rule R110), and how the host places one instruction for it. -/

namespace Sys2Proof.Machine

/-- One step. The engine steps only while Running; in Ready, Halted and Faulted it has no step (R110). -/
def step (s : State) : Host.Outcome State Fault Refusal :=
  match s.runState with
  | .running => cycle s
  | .ready => .fault .notStarted
  | .halted => .fault .alreadyHalted
  | .faulted => .fault .alreadyFaulted

/-- The instruction whose bits are `w` stored at the program counter, and the engine Running, so that the next step
runs it. From State.reset this is what `load` (R232) and `run()` (R234) do; log 1. -/
def State.withFetchWord (s : State) (nbits w : Nat) : State :=
  { s with mem := s.mem.writeBytes s.pc.toNat (tableBytes nbits w), runState := .running }

end Sys2Proof.Machine
end

