-- ==== Sys2Proof/Machine/HostOps.lean ====
section
/-! DEFINITION. What the host can do to the engine (70_reset_and_hazards.md rules R230 to R237): reset, `load`, `run`,
observation, and what the output sink shows. They are not steps: the engine never does them itself. -/

namespace Sys2Proof.Machine

/-- Why a `load` is refused (R233). It is the host's error, not a fault of the engine (R195). The spec names one
`LoaderError`; that the model tells its two cases apart is its own (DESIGN CHOICE, log 13). -/
inductive LoaderError where
  /-- The engine is not Ready (R233). -/
  | notReady
  /-- There are more than 256 bytes (R233). -/
  | tooLong
deriving DecidableEq, Repr

/-- Reset, which may be applied in any run state and restores every item of state, memory too (R230). -/
def hostReset (_ : State) : State := State.reset

/-- `load(bytes)`: only in Ready and at most 256 bytes, placed from address 0; cells beyond keep their value (R232). A
refused load changes nothing (R233). DESIGN CHOICE (log 13): a load that is both too long and outside Ready reports
`notReady`; the spec gives the two cases no order. -/
def hostLoad (bytes : List Byte) (s : State) : Except LoaderError State :=
  if s.runState ≠ .ready then .error .notReady
  else if bytes.length > Config.memSize then .error .tooLong
  else .ok (s.setMem (s.mem.writeBytes Config.loadBase bytes))

/-- Entry of `run()`: Ready to Running, nothing else changes (R234); in Halted and Faulted it has no effect (R235). In
Running it cannot be issued; the model leaves the state as it is (log 6). -/
def hostRun (s : State) : State :=
  match s.runState with
  | .ready => { s with runState := .running }
  | .running => s
  | .halted => s
  | .faulted => s

/-- What the host can read: the whole state while the engine is not Running, nothing while it is (R38). -/
def hostObserve (s : State) : Option State :=
  match s.runState with
  | .running => none
  | .ready => some s
  | .halted => some s
  | .faulted => some s

/-- The state after at most `fuel` steps, stopping where the engine has no step: the run of R118, cut off. Exhausting
the fuel is no state of the machine (93_implementation_defined.md U12). -/
def runFor : Nat → State → State
  | 0, s => s
  | fuel + 1, s =>
    match step s with
    | .next t => runFor fuel t
    | .fault _ => s
    | .refused _ => s

/-- A run of `s` that ends, and the state it ends in (R118). -/
def RunEnds (s t : State) : Prop := ∃ fuel, runFor fuel s = t ∧ t.runState ≠ .running

/-- The digit characters of a number below 10. -/
def digitChar (n : Nat) : Char := Char.ofNat (48 + n)

/-- The shortest decimal numeral of a byte: no sign, no leading zero, `0` for zero (R131). -/
def decimal (v : Byte) : List Char :=
  let n := v.toNat
  if n < 10 then [digitChar n]
  else if n < 100 then [digitChar (n / 10), digitChar (n % 10)]
  else [digitChar (n / 100), digitChar (n / 10 % 10), digitChar (n % 10)]

/-- What the sink shows for an output stream: each value's numeral and one line feed (R37, R131). -/
def sinkText : List Byte → List Char
  | [] => []
  | v :: vs => decimal v ++ [Char.ofNat 10] ++ sinkText vs

end Sys2Proof.Machine
end

