-- ==== Sys2Proof/Safety.lean ====
section
/-! DEFINITION. The terms claims are stated in: the invariant of the engine, and what a successful run is. -/

namespace Sys2Proof.Machine

/-- The 13 defined opcode bytes (30_encoding.md rule R86), in the table's order. -/
def definedOpcodes : List Byte :=
  [0x01, 0x82, 0x47, 0xA2, 0xA0, 0x45, 0x46, 0x50, 0x11, 0xA7, 0x54, 0x55, 0x56]

/-- The fault record is there exactly in Faulted (R35) and holds a value that can occur there: an undefined byte that
stands at `pc` (R191, R199), or one of the integers of R194. -/
def State.recordFits (s : State) : Bool :=
  match s.fault with
  | none => decide (s.runState ≠ .faulted)
  | some (.illegalInstruction op loc) =>
    decide (s.runState = .faulted ∧ loc = s.pc.toNat ∧ loc ≤ 255 ∧ s.mem.read loc = op ∧ op ∉ definedOpcodes)
  | some (.outOfBounds a) =>
    decide (s.runState = .faulted ∧ (a = -1 ∨ (8 ≤ a ∧ a ≤ 256)))

/-- In Halted, `pc` is the address of a HLT byte (R116, R118). -/
def State.haltFits (s : State) : Bool :=
  decide (s.runState = .halted → s.pc.toNat ≤ 255 ∧ s.mem.read s.pc.toNat = 0x01)

/-- The engine's invariant: memory is in its canonical form, `pc` is 0 to 256 (R28), and the run state, the fault
record, `pc` and memory fit together. -/
abbrev State.Inv (s : State) : Prop :=
  s.mem.wf ∧ s.pc.toNat ≤ 256 ∧ s.recordFits = true ∧ s.haltFits = true

/-- The bytes of memory from `pc` on that an instruction could occupy: at most three, and none beyond 255 (R80, R113). -/
def State.window (s : State) : List Byte :=
  (([0, 1, 2].map (s.pc.toNat + ·)).filter (· ≤ 255)).map s.mem.read

/-- The registers an instruction writes, by 10_state.md rule R25's two "writes" columns. -/
def WritesReg : Instr → Reg → Prop
  | .hlt, _ => False
  | .ldi b1 _, q => b1 = q.byte
  | .prn _, _ => False
  | .mul b1 _, q => b1 = q.byte
  | .add b1 _, q => b1 = q.byte
  | .push _, q => q = .sp
  | .pop b1, q => b1 = q.byte ∨ q = .sp
  | .call _, q => q = .sp
  | .ret, q => q = .sp
  | .cmp _ _, q => q = .fl
  | .jmp _, _ => False
  | .jeq _, _ => False
  | .jne _, _ => False

/-- The registers an instruction reads in a state, by rule R25's two "reads" columns; JEQ and JNE read the operand
register only if taken. -/
def ReadsReg : Instr → State → Reg → Prop
  | .hlt, _, _ => False
  | .ldi _ _, _, _ => False
  | .prn b1, _, q => b1 = q.byte
  | .mul b1 b2, _, q => b1 = q.byte ∨ b2 = q.byte
  | .add b1 b2, _, q => b1 = q.byte ∨ b2 = q.byte
  | .push b1, _, q => b1 = q.byte ∨ q = .sp
  | .pop _, _, q => q = .sp
  | .call b1, _, q => b1 = q.byte ∨ q = .sp
  | .ret, _, q => q = .sp
  | .cmp b1 b2, _, q => b1 = q.byte ∨ b2 = q.byte
  | .jmp b1, _, q => b1 = q.byte
  | .jeq b1, s, q => q = .fl ∨ ((s.x .fl).getLsbD 0 = true ∧ b1 = q.byte)
  | .jne b1, s, q => q = .fl ∨ ((s.x .fl).getLsbD 0 = false ∧ b1 = q.byte)

/-- What rule R29's table says of `pc` after an instruction started in `s` that ended, without a fault, in `t`. CALL,
JMP and a taken JEQ or JNE go to the operand register, which for `CALL R7` is the decremented one (R160), and CALL saves
`pc + 2` on the stack. -/
def PcAfter (i : Instr) (s t : State) : Prop :=
  match i with
  | .hlt => t.pc = s.pc
  | .ldi _ _ => t.pc.toNat = s.pc.toNat + 3
  | .prn _ => t.pc.toNat = s.pc.toNat + 2
  | .mul _ _ => t.pc.toNat = s.pc.toNat + 3
  | .add _ _ => t.pc.toNat = s.pc.toNat + 3
  | .push _ => t.pc.toNat = s.pc.toNat + 2
  | .pop _ => t.pc.toNat = s.pc.toNat + 2
  | .call b1 => (∃ r : Reg, b1 = r.byte ∧ t.pc.toNat = (t.x r).toNat) ∧
      (t.mem.read (t.x .sp).toNat).toNat = s.pc.toNat + 2
  | .ret => t.pc.toNat = (s.mem.read (s.x .sp).toNat).toNat
  | .cmp _ _ => t.pc.toNat = s.pc.toNat + 3
  | .jmp b1 => ∃ r : Reg, b1 = r.byte ∧ t.pc.toNat = (s.x r).toNat
  | .jeq b1 => ∃ r : Reg, b1 = r.byte ∧
      t.pc.toNat = if (s.x .fl).getLsbD 0 then (s.x r).toNat else s.pc.toNat + 2
  | .jne b1 => ∃ r : Reg, b1 = r.byte ∧
      t.pc.toNat = if (s.x .fl).getLsbD 0 then s.pc.toNat + 2 else (s.x r).toNat

/-- A run that succeeds ends in Halted; Faulted is never a successful end (R201). -/
def Succeeds (s : State) : Prop := ∃ t, RunEnds s t ∧ t.runState = .halted

end Sys2Proof.Machine
end

