-- ==== Sys2Proof/Certificates/Slice0/Obligations.lean ====
section
/-! DEFINITION. The statements for the provers, in the order of spec/: encoding, memory, fetch and step, the 13
instructions, whole-machine rules, reset and host operations, invariants. Each docstring names the rule it states; where
a clause rests on one of the spec's own decisions `D<n>` (92_eei_decisions.md, log 10) it says so; not repeated at each
statement are D6, that a fault changes nothing but the fault record and the run state, and D18, which integer an
`OutOfBounds` records. `r.byte` is the operand byte
that selects register `r`. -/

open Sys2Proof Sys2Proof.Machine

/-! ### Encoding (30_encoding.md) -/

/-- The decoder reads a few words written out from the formats and the opcode map of 30_encoding.md sections 1 and 3: one of each
family, with the operand that comes first in the lower byte. -/
def Obligations.WordsOfEveryFamilyDecode : Prop :=
  decode [0x01] = .ok (.hlt, []) ∧
  decode [0x82, 0x03, 0xFF] = .ok (.ldi 3 255, []) ∧
  decode [0x47, 0x06] = .ok (.prn 6, []) ∧
  decode [0xA0, 0x00, 0x01, 0x47] = .ok (.add 0 1, [0x47]) ∧
  decode [0xA2, 0x02, 0x01] = .ok (.mul 2 1, []) ∧
  decode [0x45, 0x07] = .ok (.push 7, []) ∧
  decode [0x46, 0x09] = .ok (.pop 9, []) ∧
  decode [0x50, 0x01] = .ok (.call 1, []) ∧
  decode [0x11, 0x11] = .ok (.ret, [0x11]) ∧
  decode [0xA7, 0x05, 0x04] = .ok (.cmp 5 4, []) ∧
  decode [0x54, 0x02] = .ok (.jmp 2, []) ∧
  decode [0x55, 0x02] = .ok (.jeq 2, []) ∧
  decode [0x56, 0x02] = .ok (.jne 2, [])

/-- R94: the opcode byte, then one byte per operand in written order, a register `Rn` as the byte `n`, an immediate as its
value; and the rule's four examples. -/
def Obligations.EncodingByHand : Prop :=
  (∀ (r q : Reg) (v : Byte),
    encode .hlt = [0x01] ∧ encode .ret = [0x11] ∧
    encode (.ldi r.byte v) = [0x82, BitVec.ofNat 8 r.index, v] ∧
    encode (.prn r.byte) = [0x47, BitVec.ofNat 8 r.index] ∧
    encode (.push r.byte) = [0x45, BitVec.ofNat 8 r.index] ∧
    encode (.pop r.byte) = [0x46, BitVec.ofNat 8 r.index] ∧
    encode (.call r.byte) = [0x50, BitVec.ofNat 8 r.index] ∧
    encode (.jmp r.byte) = [0x54, BitVec.ofNat 8 r.index] ∧
    encode (.jeq r.byte) = [0x55, BitVec.ofNat 8 r.index] ∧
    encode (.jne r.byte) = [0x56, BitVec.ofNat 8 r.index] ∧
    encode (.mul r.byte q.byte) = [0xA2, BitVec.ofNat 8 r.index, BitVec.ofNat 8 q.index] ∧
    encode (.add r.byte q.byte) = [0xA0, BitVec.ofNat 8 r.index, BitVec.ofNat 8 q.index] ∧
    encode (.cmp r.byte q.byte) = [0xA7, BitVec.ofNat 8 r.index, BitVec.ofNat 8 q.index]) ∧
  encode (.ldi 0 8) = [0x82, 0x00, 0x08] ∧ encode (.add 0 1) = [0xA0, 0x00, 0x01] ∧
  encode (.prn 0) = [0x47, 0x00] ∧ encode .hlt = [0x01]

/-- Decoding and encoding agree in both directions, for every instruction at every operand value and whatever follows:
no bit of an encoding is dropped and each byte sequence has one meaning (30_encoding.md sections 1 to 3). -/
def Obligations.DecodeAndEncodeAgree : Prop :=
  (∀ (i : Instr) (rest : List Byte), decode (encode i ++ rest) = .ok (i, rest)) ∧
  (∀ (bytes : List Byte) (i : Instr) (rest : List Byte), decode bytes = .ok (i, rest) → bytes = encode i ++ rest)

/-- The byte values that are illegal as an opcode, and that fetching one raises `IllegalInstruction(op, pc)`
(30_encoding.md section 4); the state after that fault is the spec's decision D6 (log 10). -/
def Obligations.IllegalOpcodeBytes : Prop :=
  ∀ op : Byte,
    ((∃ rest, decode (op :: rest) = .error (.illegalOpcode op)) ↔
      (op.toNat = 0x00 ∨ (0x02 ≤ op.toNat ∧ op.toNat ≤ 0x10) ∨ (0x12 ≤ op.toNat ∧ op.toNat ≤ 0x44) ∨
        (0x48 ≤ op.toNat ∧ op.toNat ≤ 0x4F) ∨ (0x51 ≤ op.toNat ∧ op.toNat ≤ 0x53) ∨
        (0x57 ≤ op.toNat ∧ op.toNat ≤ 0x81) ∨ (0x83 ≤ op.toNat ∧ op.toNat ≤ 0x9F) ∨ op.toNat = 0xA1 ∨
        (0xA3 ≤ op.toNat ∧ op.toNat ≤ 0xA6) ∨ 0xA8 ≤ op.toNat)) ∧
    (op ∉ definedOpcodes ↔ ∃ rest, decode (op :: rest) = .error (.illegalOpcode op)) ∧
    (∀ s : State, s.runState = .running → s.pc.toNat ≤ 255 → s.mem.read s.pc.toNat = op → op ∉ definedOpcodes →
      step s = .next { s with fault := some (.illegalInstruction op s.pc.toNat), runState := .faulted }) ∧
    (definedOpcodes.length = 13 ∧ definedOpcodes.Nodup)

/-- R81: the length of an instruction is one more than bits 7:6 of its opcode byte, for every defined opcode; the value 3
occurs in none, no instruction is longer than 3 bytes, and an undefined opcode byte is refused whatever follows it. -/
def Obligations.LengthFromHighBits : Prop :=
  (∀ (op : Byte) (tail : List Byte) (i : Instr) (rest : List Byte), decode (op :: tail) = .ok (i, rest) →
    (op :: tail).length = rest.length + 1 + (op.extractLsb' 6 2).toNat) ∧
  (∀ i : Instr, (encode i).length ≤ 3) ∧
  (∀ op ∈ definedOpcodes, op.extractLsb' 6 2 ≠ 0b11#2) ∧
  (∀ (op : Byte) (tail : List Byte), op ∉ definedOpcodes → decode (op :: tail) = .error (.illegalOpcode op))

/-! ### Memory (20_memory.md) -/

/-- R53: `MemRead(a, 1)` is the cell for an address 0 to 255 and raises `OutOfBounds(a)` otherwise. It returns no state,
so it changes none. -/
def Obligations.MemReadChecksItsAddress : Prop :=
  ∀ (s : State) (a : Int),
    ((a < 0 ∨ a > 255) → memRead s a = .error (.outOfBounds a)) ∧
    ((0 ≤ a ∧ a ≤ 255) → memRead s a = .ok (s.mem.read a.toNat))

/-- R54: `MemWrite(a, 1, v)` writes the cell for an address 0 to 255, and nothing else changes; it raises `OutOfBounds(a)`
otherwise. -/
def Obligations.MemWriteChangesOneCell : Prop :=
  ∀ (s : State) (a : Int) (v : Byte),
    ((a < 0 ∨ a > 255) → memWrite s a v = .error (.outOfBounds a)) ∧
    ((0 ≤ a ∧ a ≤ 255) → ∃ t, memWrite s a v = .ok t ∧ t.mem.read a.toNat = v ∧
      (∀ b : Nat, b ≠ a.toNat → t.mem.read b = s.mem.read b) ∧
      t.regs = s.regs ∧ t.pc = s.pc ∧ t.runState = s.runState ∧ t.fault = s.fault ∧ t.out = s.out)

/-! ### Fetch and step (40_dispatch_and_halt.md) -/

/-- When the bytes at the program counter decode to an instruction, a step of the running engine is that instruction's
`exec`; the step adds nothing around it (40_dispatch_and_halt.md section 1). -/
def Obligations.StepRunsTheDecodedInstruction : Prop :=
  ∀ (s : State) (i : Instr) (rest : List Byte), s.runState = .running → decode s.window = .ok (i, rest) →
    step s = exec i s

/-- An instruction whose bytes lie in memory from the program counter on is the one the next step runs
(40_dispatch_and_halt.md section 1, 20_memory.md section 3). -/
def Obligations.StoredInstructionRuns : Prop :=
  ∀ (s : State) (i : Instr), s.runState = .running → s.pc.toNat + (encode i).length ≤ 256 →
    (∀ k, k < (encode i).length → (encode i)[k]? = some (s.mem.read (s.pc.toNat + k))) →
    step s = exec i s

/-- Opcode fetch past the top of memory raises `OutOfBounds(pc)` (40_dispatch_and_halt.md section 1), and in a state the
engine's invariant admits that integer is 256 (the spec's decision D2). -/
def Obligations.OpcodeFetchPastTheTopFaults : Prop :=
  ∀ s : State, s.runState = .running → s.pc.toNat > 255 →
    step s = .next (s.takeFault (.outOfBounds s.pc.toNat)) ∧ (s.Inv → s.pc.toNat = 256)

/-- Operand bytes past the top of memory: a defined opcode with an operand at 255, or with two at 254, raises
`OutOfBounds(256)`, before any register index is validated and whether or not a jump would be taken. The uniform fetch
and the order rest on the spec's decisions D7 and D8. -/
def Obligations.OperandFetchPastTheTopFaults : Prop :=
  ∀ (s : State) (op : Byte), s.runState = .running → s.mem.read s.pc.toNat = op → op ∈ definedOpcodes →
    ((s.pc.toNat = 255 ∧ op ≠ 0x01 ∧ op ≠ 0x11) ∨
      (s.pc.toNat = 254 ∧ (op = 0x82 ∨ op = 0xA0 ∨ op = 0xA2 ∨ op = 0xA7))) →
    step s = .next (s.takeFault (.outOfBounds 256))

/-- A register-index byte is used whole; 0 to 7 select R0 to R7, and 8 to 255 make the instruction fault with `OutOfBounds`
of that byte, for `b1` of every format R, RR and RI and for `b2` of every format RR instruction (10_state.md section 2,
30_encoding.md section 2). That PUSH, POP and CALL report the byte whatever the stack pointer and `pc` are is the order of
the spec's decision D7, that JEQ and JNE fault also where the jump would not be taken is D8 (log 10). -/
def Obligations.RegisterIndexBytes : Prop :=
  (∀ b : Byte, b.toNat ≤ 7 → ∃ r : Reg, regIndex b = .ok r ∧ r.index = b.toNat ∧ b = r.byte) ∧
  (∀ b : Byte, b.toNat > 7 → regIndex b = .error (.outOfBounds b.toNat)) ∧
  (∀ (s : State) (b v : Byte) (r : Reg), b.toNat > 7 →
    exec (.ldi b v) s = .next (s.takeFault (.outOfBounds b.toNat)) ∧
    exec (.prn b) s = .next (s.takeFault (.outOfBounds b.toNat)) ∧
    exec (.push b) s = .next (s.takeFault (.outOfBounds b.toNat)) ∧
    exec (.pop b) s = .next (s.takeFault (.outOfBounds b.toNat)) ∧
    exec (.call b) s = .next (s.takeFault (.outOfBounds b.toNat)) ∧
    exec (.jmp b) s = .next (s.takeFault (.outOfBounds b.toNat)) ∧
    exec (.jeq b) s = .next (s.takeFault (.outOfBounds b.toNat)) ∧
    exec (.jne b) s = .next (s.takeFault (.outOfBounds b.toNat)) ∧
    exec (.mul b r.byte) s = .next (s.takeFault (.outOfBounds b.toNat)) ∧
    exec (.add b r.byte) s = .next (s.takeFault (.outOfBounds b.toNat)) ∧
    exec (.cmp b r.byte) s = .next (s.takeFault (.outOfBounds b.toNat)) ∧
    exec (.mul r.byte b) s = .next (s.takeFault (.outOfBounds b.toNat)) ∧
    exec (.add r.byte b) s = .next (s.takeFault (.outOfBounds b.toNat)) ∧
    exec (.cmp r.byte b) s = .next (s.takeFault (.outOfBounds b.toNat)))

/-- Which of several faults one instruction reports: the first register index before the second, a register index before
the stack pointer, the stack pointer before CALL's return address (60_exceptions.md section 3; the order is the spec's
decision D7). -/
def Obligations.FirstFaultIsReported : Prop :=
  (∀ (s : State) (b c : Byte), b.toNat > 7 → c.toNat > 7 →
    exec (.mul b c) s = .next (s.takeFault (.outOfBounds b.toNat)) ∧
    exec (.add b c) s = .next (s.takeFault (.outOfBounds b.toNat)) ∧
    exec (.cmp b c) s = .next (s.takeFault (.outOfBounds b.toNat))) ∧
  (∀ (s : State) (b : Byte), b.toNat > 7 → s.x .sp = 0 →
    exec (.push b) s = .next (s.takeFault (.outOfBounds b.toNat)) ∧
    exec (.call b) s = .next (s.takeFault (.outOfBounds b.toNat))) ∧
  (∀ (s : State) (r : Reg), s.x .sp = 0 → s.pc.toNat + 2 > 255 →
    exec (.call r.byte) s = .next (s.takeFault (.outOfBounds (-1))))

/-- A running engine always has a step, with exactly one of three outcomes: it completes and does what the instruction at
`pc` does, it is HLT, or a fault is raised; in Ready, Halted and Faulted the engine has no step (40_dispatch_and_halt.md
section 1). That a fault leaves everything but the fault record and the run state as it was is the spec's decision D6
(log 10). -/
def Obligations.StepOutcomes : Prop :=
  ∀ s : State,
    (s.runState = .running → ∃ t, step s = .next t ∧
      ((t.runState = .running ∧ t.fault = s.fault ∧
          ∃ i rest, decode s.window = .ok (i, rest) ∧ exec i s = .next t) ∨
        (t = { s with runState := .halted } ∧ ∃ rest, decode s.window = .ok (.hlt, rest)) ∨
        (∃ f, t = { s with fault := some f, runState := .faulted }))) ∧
    (s.runState ≠ .running → ∀ t, step s ≠ .next t)

/-- An instruction that raises a fault, while it is executed or while it is fetched, records it and enters Faulted, and that
is all (60_exceptions.md section 4). That registers, memory, `pc` and `out` are those the instruction started with, so that
there is no partial write, is the spec's decision D6 (log 10). -/
def Obligations.TakingAFaultChangesNothingElse : Prop :=
  (∀ (i : Instr) (s t : State), s.runState ≠ .faulted → exec i s = .next t → t.runState = .faulted →
    ∃ f, t = { s with fault := some f, runState := .faulted }) ∧
  (∀ s t : State, step s = .next t → t.runState = .faulted →
    ∃ f, t = { s with fault := some f, runState := .faulted })

/-- The complete list of what can be recorded, with the condition of each case: an undefined opcode byte, and the eight
cases of 60_exceptions.md section 1's table. Of the spec's decisions it rests on D2 (`pc` reaches 256), D3 and D4 (the
stack pointer at 0 and at 255), D5 (CALL's return address), D7 (the order), D8 (JEQ and JNE fault on their operand byte
also where the jump would not be taken), D15 (for `POP R7` the byte just popped is incremented) and D18 (log 10). -/
def Obligations.EveryRecordedFaultHasItsCause : Prop :=
  ∀ (s t : State) (f : FaultRecord), s.runState = .running → s.fault = none → step s = .next t → t.fault = some f →
    let pc := s.pc.toNat
    let op := s.mem.read pc
    let b1 := s.mem.read (pc + 1)
    let b2 := s.mem.read (pc + 2)
    (pc ≤ 255 ∧ op ∉ definedOpcodes ∧ f = .illegalInstruction op pc) ∨
    (pc > 255 ∧ f = .outOfBounds pc) ∨
    (pc = 255 ∧ op ∈ definedOpcodes ∧ op ≠ 0x01 ∧ op ≠ 0x11 ∧ f = .outOfBounds 256) ∨
    (pc = 254 ∧ (op = 0x82 ∨ op = 0xA2 ∨ op = 0xA0 ∨ op = 0xA7) ∧ f = .outOfBounds 256) ∨
    (pc ≤ 254 ∧ op ∈ definedOpcodes ∧ op ≠ 0x01 ∧ op ≠ 0x11 ∧ b1.toNat > 7 ∧ f = .outOfBounds b1.toNat) ∨
    (pc ≤ 253 ∧ (op = 0xA2 ∨ op = 0xA0 ∨ op = 0xA7) ∧ b2.toNat > 7 ∧ f = .outOfBounds b2.toNat) ∨
    (pc ≤ 254 ∧ (op = 0x45 ∨ op = 0x50) ∧ s.x .sp = 0 ∧ f = .outOfBounds (-1)) ∨
    (pc = 254 ∧ op = 0x50 ∧ f = .outOfBounds 256) ∨
    (pc ≤ 255 ∧ op = 0x11 ∧ s.x .sp = 255 ∧ f = .outOfBounds 256) ∨
    (pc ≤ 254 ∧ op = 0x46 ∧ (if b1 = Reg.sp.byte then s.mem.read (s.x .sp).toNat else s.x .sp) = 255 ∧
      f = .outOfBounds 256)

/-! ### HLT, LDI, PRN -/

/-- R116: HLT enters Halted and changes nothing else, `pc` included; a step that fetches it always ends so, at address 255
too; it is the only way to reach Halted, which has no further step. -/
def Obligations.HltHalts : Prop :=
  (∀ s : State, exec .hlt s = .next { s with runState := .halted }) ∧
  (∀ s : State, s.runState = .running → s.pc.toNat ≤ 255 → s.mem.read s.pc.toNat = 0x01 →
    step s = .next { s with runState := .halted }) ∧
  (∀ s t : State, step s = .next t → t.runState = .halted → s.pc.toNat ≤ 255 ∧ s.mem.read s.pc.toNat = 0x01) ∧
  (∀ s t : State, s.runState = .halted → step s ≠ .next t)

/-- LDI loads its immediate, whatever it is, into any register, R6 and R7 included; its faults are those of the common
rules, an operand byte beyond 255 and a register index above 7 (41_load_and_print.md, LDI). That the operand byte beyond
255 is reported where both hold, with the opcode at 254, is the spec's decision D7 (log 10). -/
def Obligations.LdiLoadsTheImmediate : Prop :=
  (∀ (s : State) (r : Reg) (v : Byte), ∃ t, exec (.ldi r.byte v) s = .next t ∧
    t.x r = v ∧ (∀ q, q ≠ r → t.x q = s.x q) ∧ t.pc = s.pc + 3 ∧ (∀ a, t.mem.read a = s.mem.read a) ∧
    t.runState = s.runState ∧ t.fault = s.fault ∧ t.out = s.out) ∧
  (∀ s : State, s.runState = .running → s.pc.toNat ≤ 255 → s.mem.read s.pc.toNat = 0x82 →
    if s.pc.toNat ≥ 254 then step s = .next (s.takeFault (.outOfBounds 256))
    else if (s.mem.read (s.pc.toNat + 1)).toNat > 7 then
      step s = .next (s.takeFault (.outOfBounds (s.mem.read (s.pc.toNat + 1)).toNat))
    else step s = exec (.ldi (s.mem.read (s.pc.toNat + 1)) (s.mem.read (s.pc.toNat + 2))) s)

/-- PRN appends its register's value to the output stream and changes nothing else but `pc` (41_load_and_print.md, PRN). -/
def Obligations.PrnEmitsTheRegister : Prop :=
  ∀ (s : State) (r : Reg), ∃ t, exec (.prn r.byte) s = .next t ∧
    t.out = s.out ++ [s.x r] ∧ (∀ q, t.x q = s.x q) ∧ t.pc = s.pc + 2 ∧ (∀ a, t.mem.read a = s.mem.read a) ∧
    t.runState = s.runState ∧ t.fault = s.fault

/-- What the sink shows: for each value the shortest decimal numeral and one line feed. The exact text is the spec's
decision D12. -/
def Obligations.SinkShowsDecimalLines : Prop :=
  (∀ v : Byte, (decimal v).foldl (fun n c => 10 * n + (c.toNat - 48)) 0 = v.toNat ∧ decimal v ≠ [] ∧
    (∀ c ∈ decimal v, 48 ≤ c.toNat ∧ c.toNat ≤ 57) ∧
    ((decimal v).length > 1 → (decimal v).head? ≠ some '0')) ∧
  (∀ (o : List Byte) (v : Byte), sinkText (o ++ [v]) = sinkText o ++ decimal v ++ [Char.ofNat 0x0A])

/-! ### MUL and ADD (42_arithmetic.md) -/

/-- MUL writes the low 8 bits of the unsigned product to its first register and changes nothing else but `pc`: no flag, no
fault on overflow. The reduction modulo 256 is the spec's decision D1. -/
def Obligations.MulWritesTheLowProduct : Prop :=
  ∀ (s : State) (ra rb : Reg), ∃ t, exec (.mul ra.byte rb.byte) s = .next t ∧
    (t.x ra).toNat = (s.x ra).toNat * (s.x rb).toNat % 256 ∧ (∀ q, q ≠ ra → t.x q = s.x q) ∧ t.pc = s.pc + 3 ∧
    (∀ a, t.mem.read a = s.mem.read a) ∧ t.runState = s.runState ∧ t.fault = s.fault ∧ t.out = s.out

/-- ADD writes the low 8 bits of the unsigned sum to its first register and changes nothing else but `pc`: no flag, no
fault on overflow. The reduction modulo 256 is the spec's decision D1. -/
def Obligations.AddWritesTheLowSum : Prop :=
  ∀ (s : State) (ra rb : Reg), ∃ t, exec (.add ra.byte rb.byte) s = .next t ∧
    (t.x ra).toNat = ((s.x ra).toNat + (s.x rb).toNat) % 256 ∧ (∀ q, q ≠ ra → t.x q = s.x q) ∧ t.pc = s.pc + 3 ∧
    (∀ a, t.mem.read a = s.mem.read a) ∧ t.runState = s.runState ∧ t.fault = s.fault ∧ t.out = s.out

/-- Laws of the arithmetic, as results of instructions: ADD and MUL are commutative modulo 256, 0 is ADD's identity, 1
is MUL's, 0 annihilates, and adding `256 - k` undoes adding `k` (42_arithmetic.md; decision D1). Associativity and
distributivity are `ArithmeticAssociatesAndDistributes`. -/
def Obligations.ArithmeticLaws : Prop :=
  ∀ (s : State) (ra rb : Reg),
    (∃ t u, exec (.add ra.byte rb.byte) s = .next t ∧ exec (.add rb.byte ra.byte) s = .next u ∧ t.x ra = u.x rb) ∧
    (∃ t u, exec (.mul ra.byte rb.byte) s = .next t ∧ exec (.mul rb.byte ra.byte) s = .next u ∧ t.x ra = u.x rb) ∧
    (s.x rb = 0 → ∃ t u, exec (.add ra.byte rb.byte) s = .next t ∧ t.x ra = s.x ra ∧
      exec (.mul ra.byte rb.byte) s = .next u ∧ u.x ra = 0) ∧
    (s.x rb = 1 → ∃ t, exec (.mul ra.byte rb.byte) s = .next t ∧ t.x ra = s.x ra) ∧
    (ra ≠ rb → ∀ k : Byte, s.x rb = k → ∃ t u, exec (.add ra.byte rb.byte) s = .next t ∧
      exec (.add ra.byte rb.byte) (t.setX rb (0 - k)) = .next u ∧ u.x ra = s.x ra)

/-- ADD and MUL are associative modulo 256, and MUL distributes over ADD, as results of sequences of instructions
(42_arithmetic.md; decision D1). `a`, `b`, `c` are the values `ra`, `rb`, `rc` hold in `s`: `u` and `w` end with
`(a + b) + c` and `a + (b + c)`, likewise for MUL; for distributivity `u` and `z` end with `a * (b + c)` and
`b * a + c * a`. A premise rules out only the registers with which an instruction of the sequence overwrites an operand
that a later one needs. -/
def Obligations.ArithmeticAssociatesAndDistributes : Prop :=
  ∀ (s : State) (ra rb rc : Reg), ra ≠ rb →
    (ra ≠ rc → ∃ t u v w, exec (.add ra.byte rb.byte) s = .next t ∧ exec (.add ra.byte rc.byte) t = .next u ∧
      exec (.add rb.byte rc.byte) s = .next v ∧ exec (.add ra.byte rb.byte) v = .next w ∧ u.x ra = w.x ra) ∧
    (ra ≠ rc → ∃ t u v w, exec (.mul ra.byte rb.byte) s = .next t ∧ exec (.mul ra.byte rc.byte) t = .next u ∧
      exec (.mul rb.byte rc.byte) s = .next v ∧ exec (.mul ra.byte rb.byte) v = .next w ∧ u.x ra = w.x ra) ∧
    (rb ≠ rc → ∃ t u v w z, exec (.add rb.byte rc.byte) s = .next t ∧ exec (.mul ra.byte rb.byte) t = .next u ∧
      exec (.mul rb.byte ra.byte) s = .next v ∧ exec (.mul rc.byte ra.byte) v = .next w ∧
      exec (.add rb.byte rc.byte) w = .next z ∧ u.x ra = z.x rb)

/-! ### PUSH and POP (43_stack.md) -/

/-- PUSH with a stack pointer above 0: the pointer goes down by one, the cell it then addresses takes the register's value,
read after the decrement, and nothing else changes but `pc`. What `PUSH R7` stores is the spec's decision D15, the
condition D3. -/
def Obligations.PushStoresBelowTheStackPointer : Prop :=
  ∀ (s : State) (r : Reg), s.x .sp ≠ 0 → ∃ t, exec (.push r.byte) s = .next t ∧
    (t.x .sp).toNat + 1 = (s.x .sp).toNat ∧ (∀ q, q ≠ .sp → t.x q = s.x q) ∧
    t.mem.read (s.x .sp - 1).toNat = (if r = .sp then s.x .sp - 1 else s.x r) ∧
    (∀ a, a ≠ (s.x .sp - 1).toNat → t.mem.read a = s.mem.read a) ∧
    t.pc = s.pc + 2 ∧ t.runState = s.runState ∧ t.fault = s.fault ∧ t.out = s.out

/-- POP: the register takes the byte the stack pointer addresses, then the pointer goes up by one; for `POP R7` the
increment is applied to the byte just popped. It completes unless the value to be incremented is 255. The `POP R7` case
is the spec's decision D15, the condition D4. -/
def Obligations.PopLoadsFromTheStackPointer : Prop :=
  ∀ (s : State) (r : Reg), (if r = .sp then s.mem.read (s.x .sp).toNat else s.x .sp) ≠ 255 →
    ∃ t, exec (.pop r.byte) s = .next t ∧
      (r ≠ .sp → t.x r = s.mem.read (s.x .sp).toNat ∧ (t.x .sp).toNat = (s.x .sp).toNat + 1) ∧
      (r = .sp → (t.x .sp).toNat = (s.mem.read (s.x .sp).toNat).toNat + 1) ∧
      (∀ q, q ≠ r → q ≠ .sp → t.x q = s.x q) ∧ (∀ a, t.mem.read a = s.mem.read a) ∧
      t.pc = s.pc + 2 ∧ t.runState = s.runState ∧ t.fault = s.fault ∧ t.out = s.out

/-- The stack instructions never wrap the stack pointer: a decrement from 0 raises `OutOfBounds(-1)`, an increment from 255
raises `OutOfBounds(256)` (43_stack.md; the spec's decisions D3 and D4). That `POP R7` increments the byte just popped, so
that it faults on 255, is D15; that CALL reports -1 whatever its return address is D7 (log 10). -/
def Obligations.StackPointerNeverWraps : Prop :=
  ∀ (s : State) (r : Reg),
    (s.x .sp = 0 → exec (.push r.byte) s = .next (s.takeFault (.outOfBounds (-1))) ∧
      exec (.call r.byte) s = .next (s.takeFault (.outOfBounds (-1)))) ∧
    (s.x .sp = 255 → r ≠ .sp → exec (.pop r.byte) s = .next (s.takeFault (.outOfBounds 256))) ∧
    (s.mem.read (s.x .sp).toNat = 255 → exec (.pop Reg.sp.byte) s = .next (s.takeFault (.outOfBounds 256))) ∧
    (s.x .sp = 255 → exec .ret s = .next (s.takeFault (.outOfBounds 256)))

/-- The push-pop law, for every register, R7 included: POP right after PUSH of the same register restores the register and
the stack pointer (43_stack.md; for R7 it rests on the spec's decision D15, the condition on the stack pointer is D3). -/
def Obligations.PushThenPopRestores : Prop :=
  ∀ (s : State) (r : Reg), s.x .sp ≠ 0 → ∃ t u, exec (.push r.byte) s = .next t ∧ exec (.pop r.byte) t = .next u ∧
    (∀ q, u.x q = s.x q) ∧ u.pc = s.pc + 4 ∧ u.out = s.out ∧ u.runState = s.runState ∧ u.fault = s.fault

/-- R66: POP and RET do not clear the cell they read; after POP the cell at the old stack pointer still holds the popped
value. -/
def Obligations.PoppedCellsAreLeft : Prop :=
  (∀ (s t : State) (b : Byte), exec (.pop b) s = .next t → ∀ a, t.mem.read a = s.mem.read a) ∧
  (∀ s t : State, exec .ret s = .next t → ∀ a, t.mem.read a = s.mem.read a) ∧
  (∀ (s t : State) (r : Reg), r ≠ .sp → s.x .sp ≠ 255 → exec (.pop r.byte) s = .next t →
    t.mem.read (s.x .sp).toNat = t.x r)

/-! ### CALL and RET (44_call_return.md) -/

/-- CALL with a stack pointer above 0 and a return address within memory: the pointer goes down by one, the cell it then
addresses takes `pc + 2`, and `pc` takes the register, read after the decrement; nothing else changes. The target of
`CALL R7` is the spec's decision D15, the conditions D3 and D5. -/
def Obligations.CallPushesTheReturnAddress : Prop :=
  ∀ (s : State) (r : Reg), s.x .sp ≠ 0 → s.pc.toNat + 2 ≤ 255 → ∃ t, exec (.call r.byte) s = .next t ∧
    (t.x .sp).toNat + 1 = (s.x .sp).toNat ∧ (∀ q, q ≠ .sp → t.x q = s.x q) ∧
    (t.mem.read (s.x .sp - 1).toNat).toNat = s.pc.toNat + 2 ∧
    (∀ a, a ≠ (s.x .sp - 1).toNat → t.mem.read a = s.mem.read a) ∧
    t.pc.toNat = (if r = .sp then s.x .sp - 1 else s.x r).toNat ∧
    t.runState = s.runState ∧ t.fault = s.fault ∧ t.out = s.out

/-- A CALL whose return address is no address faults with that integer (44_call_return.md; the spec's decision D5). -/
def Obligations.CallFaultsOnItsReturnAddress : Prop :=
  ∀ (s : State) (r : Reg), s.x .sp ≠ 0 → s.pc.toNat + 2 > 255 →
    exec (.call r.byte) s = .next (s.takeFault (.outOfBounds (s.pc.toNat + 2 : Nat)))

/-- RET with a stack pointer below 255: `pc` takes the byte the pointer addresses, then the pointer goes up by one; nothing
else changes (44_call_return.md; the condition is the spec's decision D4). -/
def Obligations.RetPopsTheProgramCounter : Prop :=
  ∀ s : State, s.x .sp ≠ 255 → ∃ t, exec .ret s = .next t ∧
    t.pc.toNat = (s.mem.read (s.x .sp).toNat).toNat ∧ (t.x .sp).toNat = (s.x .sp).toNat + 1 ∧
    (∀ q, q ≠ .sp → t.x q = s.x q) ∧ (∀ a, t.mem.read a = s.mem.read a) ∧
    t.runState = s.runState ∧ t.fault = s.fault ∧ t.out = s.out

/-- The call-return laws: from any state in which the stack pointer is back at the value the CALL left and the cell with
the return address still holds it, RET goes to `pc + 2` of the CALL and restores the stack pointer (44_call_return.md;
it rests on the spec's decisions D3 and D5, which say when the CALL does not fault). -/
def Obligations.CallThenRetReturns : Prop :=
  ∀ (s : State) (r : Reg), s.x .sp ≠ 0 → s.pc.toNat + 2 ≤ 255 → ∃ t, exec (.call r.byte) s = .next t ∧
    ∀ u : State, u.x .sp = t.x .sp → u.mem.read (t.x .sp).toNat = t.mem.read (t.x .sp).toNat →
      ∃ v, exec .ret u = .next v ∧ v.pc.toNat = s.pc.toNat + 2 ∧ v.x .sp = s.x .sp ∧ (∀ q, q ≠ .sp → v.x q = u.x q)

/-! ### CMP, JMP, JEQ, JNE (45_compare_branch.md) -/

/-- CMP writes all 8 bits of R6 with the one pattern of its relation, compared unsigned, both operands read before, and
changes nothing else but `pc`. Unsigned comparison and its direction are the spec's decision D11, that all 8 bits are
written D21. -/
def Obligations.CmpWritesOnePattern : Prop :=
  ∀ (s : State) (ra rb : Reg), ∃ t, exec (.cmp ra.byte rb.byte) s = .next t ∧
    ((s.x ra).toNat = (s.x rb).toNat → t.x .fl = 0x01) ∧ ((s.x ra).toNat < (s.x rb).toNat → t.x .fl = 0x04) ∧
    ((s.x ra).toNat > (s.x rb).toNat → t.x .fl = 0x02) ∧ (∀ q, q ≠ .fl → t.x q = s.x q) ∧ t.pc = s.pc + 3 ∧
    (∀ a, t.mem.read a = s.mem.read a) ∧ t.runState = s.runState ∧ t.fault = s.fault ∧ t.out = s.out

/-- JMP takes `pc` from its register, R6 and R7 included, and changes nothing else; its faults are those of the common
rules (45_compare_branch.md, JMP), the state after one is the spec's decision D6 (log 10). -/
def Obligations.JmpGoesToTheRegister : Prop :=
  (∀ (s : State) (r : Reg), ∃ t, exec (.jmp r.byte) s = .next t ∧ t.pc.toNat = (s.x r).toNat ∧
    (∀ q, t.x q = s.x q) ∧ (∀ a, t.mem.read a = s.mem.read a) ∧
    t.runState = s.runState ∧ t.fault = s.fault ∧ t.out = s.out) ∧
  (∀ s : State, s.runState = .running → s.pc.toNat ≤ 255 → s.mem.read s.pc.toNat = 0x54 →
    if s.pc.toNat = 255 then step s = .next (s.takeFault (.outOfBounds 256))
    else if (s.mem.read (s.pc.toNat + 1)).toNat > 7 then
      step s = .next (s.takeFault (.outOfBounds (s.mem.read (s.pc.toNat + 1)).toNat))
    else step s = exec (.jmp (s.mem.read (s.pc.toNat + 1))) s)

/-- JEQ goes to its register if bit 0 of R6 is set and to `pc + 2` otherwise, and changes nothing else. That the test is of
bit 0 is the spec's decision D10. -/
def Obligations.JeqJumpsOnBitZero : Prop :=
  ∀ (s : State) (r : Reg), ∃ t, exec (.jeq r.byte) s = .next t ∧
    ((s.x .fl).getLsbD 0 = true → t.pc.toNat = (s.x r).toNat) ∧ ((s.x .fl).getLsbD 0 = false → t.pc = s.pc + 2) ∧
    (∀ q, t.x q = s.x q) ∧ (∀ a, t.mem.read a = s.mem.read a) ∧
    t.runState = s.runState ∧ t.fault = s.fault ∧ t.out = s.out

/-- JNE goes to its register if bit 0 of R6 is clear and to `pc + 2` otherwise, and changes nothing else. That the test is
of bit 0 is the spec's decision D10. -/
def Obligations.JneJumpsOnBitZeroClear : Prop :=
  ∀ (s : State) (r : Reg), ∃ t, exec (.jne r.byte) s = .next t ∧
    ((s.x .fl).getLsbD 0 = false → t.pc.toNat = (s.x r).toNat) ∧ ((s.x .fl).getLsbD 0 = true → t.pc = s.pc + 2) ∧
    (∀ q, t.x q = s.x q) ∧ (∀ a, t.mem.read a = s.mem.read a) ∧
    t.runState = s.runState ∧ t.fault = s.fault ∧ t.out = s.out

/-- The outcome table of 45_compare_branch.md: after a CMP, JEQ is taken and JNE is not exactly when the values were equal,
whatever R6 held before; with R6 still 0 from reset JEQ is not taken and JNE is. It rests on the spec's decisions D10,
D11 and D21. -/
def Obligations.CompareThenBranch : Prop :=
  (∀ (s : State) (ra rb r : Reg), ∃ t u v, exec (.cmp ra.byte rb.byte) s = .next t ∧
    exec (.jeq r.byte) t = .next u ∧ exec (.jne r.byte) t = .next v ∧
    (if s.x ra = s.x rb then u.pc.toNat = (t.x r).toNat ∧ v.pc = t.pc + 2
      else u.pc = t.pc + 2 ∧ v.pc.toNat = (t.x r).toNat)) ∧
  (∀ (s : State) (r : Reg), s.x .fl = 0 → ∃ u v, exec (.jeq r.byte) s = .next u ∧ exec (.jne r.byte) s = .next v ∧
    u.pc = s.pc + 2 ∧ v.pc.toNat = (s.x r).toNat)

/-! ### Whole-machine rules -/

/-- The table of which instruction reads and writes which register (10_state.md section 2). An instruction changes only the registers of its
"writes" columns, and a register outside its "reads" columns has no influence: starting with another value in it, the
instruction ends the same everywhere else, and in that register with the same value or with the one it started with. JEQ and JNE read the operand register only if taken; that bit 0 of R6
settles it is the spec's decision D10 (log 10). -/
def Obligations.RegisterReadWriteTable : Prop :=
  (∀ (i : Instr) (s t : State) (q : Reg), exec i s = .next t → t.x q ≠ s.x q → WritesReg i q) ∧
  (∀ (i : Instr) (s : State) (q : Reg) (v : Byte), ¬ ReadsReg i s q →
    ∃ t u, exec i s = .next t ∧ exec i (s.setX q v) = .next u ∧
      u.pc = t.pc ∧ u.mem = t.mem ∧ u.runState = t.runState ∧ u.fault = t.fault ∧ u.out = t.out ∧
      (∀ p, p ≠ q → u.x p = t.x p) ∧ (u.x q = t.x q ∨ (u.x q = v ∧ t.x q = s.x q)))

/-- The new `pc` of every instruction, as an integer without wrap, for an instruction whose bytes lie in memory; an
instruction that faults, while it is executed or while it is fetched, leaves it unchanged (10_state.md section 3). That
bit 0 of R6 settles whether JEQ and JNE are taken is the spec's decision D10, that `CALL R7` goes to the decremented
register D15 (log 10). -/
def Obligations.ProgramCounterTable : Prop :=
  (∀ (i : Instr) (s t : State), s.runState = .running → s.pc.toNat + (encode i).length ≤ 256 → exec i s = .next t →
    (t.runState = .faulted → t.pc = s.pc) ∧ (t.runState ≠ .faulted → PcAfter i s t)) ∧
  (∀ s t : State, step s = .next t → t.runState = .faulted → t.pc = s.pc)

/-- Which instruction reaches memory (20_memory.md section 1): only PUSH and CALL change a cell, and only the one at the
decremented stack pointer; only POP and RET depend on a cell beyond the instruction's own bytes, and only on the one at
the stack pointer. That PUSH and CALL write nothing with the stack pointer at 0 is the spec's decision D3, that a fault
leaves no partial write D6 (log 10). -/
def Obligations.MemoryAccessTable : Prop :=
  (∀ (i : Instr) (s t : State) (a : Nat), exec i s = .next t → t.mem.read a ≠ s.mem.read a →
    (∃ b, i = .push b ∨ i = .call b) ∧ s.x .sp ≠ 0 ∧ a = (s.x .sp - 1).toNat) ∧
  (∀ (i : Instr) (s : State) (m : Memory),
    ((∃ b, i = .pop b) ∨ i = .ret → m.read (s.x .sp).toNat = s.mem.read (s.x .sp).toNat) →
    ∃ t u, exec i s = .next t ∧ exec i { s with mem := m } = .next u ∧ u.regs = t.regs ∧ u.pc = t.pc ∧
      u.runState = t.runState ∧ u.fault = t.fault ∧ u.out = t.out)

/-- The output stream is only appended to, one value at a time and only by PRN, and no instruction reads it: a step from a
state with nothing emitted yet tells the step from the same state with any stream (10_state.md section 6). -/
def Obligations.OutputIsAppendOnly : Prop :=
  ∀ s t : State, step { s with out := [] } = .next t →
    step s = .next { t with out := s.out ++ t.out } ∧
    (t.out = [] ∨ ∃ r : Reg, t.out = [s.x r] ∧ s.mem.read s.pc.toNat = 0x47 ∧ s.mem.read (s.pc.toNat + 1) = r.byte)

/-- A byte PUSH writes where the next instruction lies is what the next step fetches: fetch reads memory itself
(20_memory.md section 7). Here the pushed byte is an undefined opcode, or HLT. -/
def Obligations.PushedByteIsFetchedNext : Prop :=
  ∀ (s : State) (r : Reg), s.runState = .running → s.pc.toNat ≤ 253 → r ≠ .sp →
    s.mem.read s.pc.toNat = 0x45 → s.mem.read (s.pc.toNat + 1) = r.byte → (s.x .sp).toNat = s.pc.toNat + 3 →
    ∃ t, step s = .next t ∧ t.pc.toNat = s.pc.toNat + 2 ∧
      (s.x r ∉ definedOpcodes → step t = .next (t.takeFault (.illegalInstruction (s.x r) (s.pc.toNat + 2)))) ∧
      (s.x r = 0x01 → step t = .next { t with runState := .halted })

/-- A run need not end: a JMP to itself leaves the state exactly as it was, for ever (40_dispatch_and_halt.md section 1). -/
def Obligations.JumpToItselfNeverEnds : Prop :=
  ∀ (s : State) (r : Reg), s.runState = .running → s.pc.toNat ≤ 254 → s.mem.read s.pc.toNat = 0x54 →
    s.mem.read (s.pc.toNat + 1) = r.byte → (s.x r).toNat = s.pc.toNat →
    step s = .next s ∧ ∀ t, ¬ RunEnds s t

/-! ### Reset and host operations (10_state.md section 8, 70_reset_and_hazards.md) -/

/-- R40: every item of state after reset. -/
def Obligations.ResetValues : Prop :=
  (∀ r : Reg, State.reset.x r = 0) ∧ State.reset.pc = 0 ∧ (∀ a, State.reset.mem.read a = 0) ∧
  State.reset.runState = .ready ∧ State.reset.fault = none ∧ State.reset.out = []

/-- `load` places the bytes from address 0 and changes nothing else; outside its guard it is refused with an error of the
host's (70_reset_and_hazards.md section 2; the guard is the spec's decision D19). Which of the two reasons a load reports
that is both too long and outside Ready is the model's choice (log 13). -/
def Obligations.LoadPlacesTheBytes : Prop :=
  ∀ (s : State) (bytes : List Byte),
    (s.runState = .ready → bytes.length ≤ 256 → ∃ t, hostLoad bytes s = .ok t ∧
      (∀ (a : Nat) (b : Byte), bytes[a]? = some b → t.mem.read a = b) ∧
      (∀ a, bytes.length ≤ a → t.mem.read a = s.mem.read a) ∧
      t.regs = s.regs ∧ t.pc = s.pc ∧ t.runState = .ready ∧ t.fault = s.fault ∧ t.out = s.out) ∧
    (s.runState = .ready → bytes.length > 256 → hostLoad bytes s = .error .tooLong) ∧
    (s.runState ≠ .ready → hostLoad bytes s = .error .notReady)

/-- `run()` takes Ready to Running and changes nothing else; in Halted and Faulted it has no effect; reset leaves every
run state (70_reset_and_hazards.md sections 1 and 2; the last two are the spec's decision D13). -/
def Obligations.RunAndReset : Prop :=
  ∀ s : State, (s.runState = .ready → hostRun s = { s with runState := .running }) ∧
    (s.runState = .halted ∨ s.runState = .faulted → hostRun s = s) ∧ hostReset s = State.reset

/-- A program loaded into a reset engine starts at address 0: the first step after `run()` runs the instruction its first
bytes encode (70_reset_and_hazards.md sections 2 and 3). -/
def Obligations.LoadedProgramStartsAtZero : Prop :=
  ∀ (i : Instr) (rest : List Byte), (encode i ++ rest).length ≤ 256 →
    ∃ s, hostLoad (encode i ++ rest) State.reset = .ok s ∧ step (hostRun s) = exec i (hostRun s)

/-- `run()` with nothing loaded ends at once with `IllegalInstruction(0x00, 0)` (70_reset_and_hazards.md section 2). -/
def Obligations.EmptyRunFaults : Prop :=
  step (hostRun State.reset) =
    .next { State.reset with fault := some (.illegalInstruction 0x00 0), runState := .faulted }

/-! ### Invariants -/

/-- The invariant holds at reset. Its clauses are inferences of 10_state.md (program counter, fault record) and the model's
canonical form of memory (log 5); its ranges rest on the spec's decisions D2 and D18, a fault record that matches memory
at `pc` on D6 (log 10). -/
def Obligations.InvariantHoldsAtReset : Prop := State.reset.Inv

/-- Every step keeps the invariant: memory canonical, `pc` 0 to 256, the fault record there exactly in Faulted and naming
what stands at `pc` or an integer that can occur, Halted only at a HLT byte. Its clauses are inferences of 10_state.md
and 60_exceptions.md and the model's canonical form of memory (log 5); its ranges rest on the spec's decisions D2 and D18,
a fault record that matches memory at `pc` on D6 (log 10). -/
def Obligations.EveryStepKeepsTheInvariant : Prop :=
  ∀ s t : State, s.Inv → step s = .next t → t.Inv

/-- The host operations keep the invariant: an accepted load, `run()` in any state, and reset
(70_reset_and_hazards.md section 2; log 5 and log 6). -/
def Obligations.HostOperationsKeepTheInvariant : Prop :=
  ∀ s : State, s.Inv → (∀ bytes t, hostLoad bytes s = .ok t → t.Inv) ∧ (hostRun s).Inv ∧ (hostReset s).Inv

/-- A run that ends, ends in Halted with `pc` at a HLT byte and no fault recorded, or in Faulted with a fault recorded
(40_dispatch_and_halt.md section 1, the end of a run). -/
def Obligations.HowARunEnds : Prop :=
  ∀ s t : State, s.Inv → s.runState = .running → RunEnds s t →
    (t.runState = .halted ∧ t.fault = none ∧ t.pc.toNat ≤ 255 ∧ t.mem.read t.pc.toNat = 0x01) ∨
    (t.runState = .faulted ∧ ∃ f, t.fault = some f)

/-- A run has one end: where one succeeds, every end of it is Halted, so it never ends in Faulted
(40_dispatch_and_halt.md section 1: the step is deterministic; 60_exceptions.md section 5). -/
def Obligations.ASuccessfulRunNeverFaults : Prop :=
  (∀ s t u : State, RunEnds s t → RunEnds s u → t = u) ∧
  (∀ s t : State, Succeeds s → RunEnds s t → t.runState = .halted)
end

