-- ==== Sys2Proof/Laws/State.lean ====
section
/-! SUPPORT. One lemma per field per update of the state, and the laws of the register file. Later proofs use these and
never unfold a record update. -/

namespace Sys2Proof.Machine

/-! ### `setX` -/

@[simp] theorem State.setX_pc (s : State) (r : Reg) (v : Byte) : (s.setX r v).pc = s.pc := rfl
@[simp] theorem State.setX_mem (s : State) (r : Reg) (v : Byte) : (s.setX r v).mem = s.mem := rfl
@[simp] theorem State.setX_runState (s : State) (r : Reg) (v : Byte) : (s.setX r v).runState = s.runState := rfl
@[simp] theorem State.setX_fault (s : State) (r : Reg) (v : Byte) : (s.setX r v).fault = s.fault := rfl
@[simp] theorem State.setX_out (s : State) (r : Reg) (v : Byte) : (s.setX r v).out = s.out := rfl

/-- What one register reads after a write of one register (R8, R21: no two names share storage). -/
theorem RegFile.get_set (f : RegFile) (r q : Reg) (v : Byte) : (f.set r v).get q = if q = r then v else f.get q := by
  cases r <;> cases q <;> rfl

@[simp] theorem State.x_setX (s : State) (r q : Reg) (v : Byte) : (s.setX r v).x q = if q = r then v else s.x q :=
  RegFile.get_set s.regs r q v

/-- Two register files with the same eight values are the same. -/
theorem RegFile.ext_get {f g : RegFile} (h : ∀ r, f.get r = g.get r) : f = g := by
  cases f
  cases g
  simp only [RegFile.mk.injEq]
  exact ⟨h .r0, h .r1, h .r2, h .r3, h .r4, h .r5, h .r6, h .r7⟩

/-! ### `setPc` and `advance` -/

@[simp] theorem State.setPc_regs (s : State) (t : Pc) : (s.setPc t).regs = s.regs := rfl
@[simp] theorem State.setPc_pc (s : State) (t : Pc) : (s.setPc t).pc = t := rfl
@[simp] theorem State.setPc_mem (s : State) (t : Pc) : (s.setPc t).mem = s.mem := rfl
@[simp] theorem State.setPc_runState (s : State) (t : Pc) : (s.setPc t).runState = s.runState := rfl
@[simp] theorem State.setPc_fault (s : State) (t : Pc) : (s.setPc t).fault = s.fault := rfl
@[simp] theorem State.setPc_out (s : State) (t : Pc) : (s.setPc t).out = s.out := rfl
@[simp] theorem State.x_setPc (s : State) (t : Pc) (q : Reg) : (s.setPc t).x q = s.x q := rfl

@[simp] theorem State.advance_regs (s : State) (n : Nat) : (s.advance n).regs = s.regs := rfl
@[simp] theorem State.advance_pc (s : State) (n : Nat) : (s.advance n).pc = s.pc + BitVec.ofNat 9 n := rfl
@[simp] theorem State.advance_mem (s : State) (n : Nat) : (s.advance n).mem = s.mem := rfl
@[simp] theorem State.advance_runState (s : State) (n : Nat) : (s.advance n).runState = s.runState := rfl
@[simp] theorem State.advance_fault (s : State) (n : Nat) : (s.advance n).fault = s.fault := rfl
@[simp] theorem State.advance_out (s : State) (n : Nat) : (s.advance n).out = s.out := rfl
@[simp] theorem State.x_advance (s : State) (n : Nat) (q : Reg) : (s.advance n).x q = s.x q := rfl

/-- An advance from where an instruction of `n` bytes can be fetched is the integer sum (R28, R29). -/
theorem State.advance_pc_toNat {s : State} {n : Nat} (h : s.pc.toNat + n < 512) :
    (s.advance n).pc.toNat = s.pc.toNat + n := by
  simp only [State.advance_pc, BitVec.toNat_add, BitVec.toNat_ofNat]
  omega

@[simp] theorem zext9_toNat (v : Byte) : (zext9 v).toNat = v.toNat := by
  have := v.isLt
  simp only [zext9, BitVec.toNat_setWidth]
  omega

/-! ### `emit`, `halt`, `takeFault` -/

@[simp] theorem State.emit_regs (s : State) (v : Byte) : (s.emit v).regs = s.regs := rfl
@[simp] theorem State.emit_pc (s : State) (v : Byte) : (s.emit v).pc = s.pc := rfl
@[simp] theorem State.emit_mem (s : State) (v : Byte) : (s.emit v).mem = s.mem := rfl
@[simp] theorem State.emit_runState (s : State) (v : Byte) : (s.emit v).runState = s.runState := rfl
@[simp] theorem State.emit_fault (s : State) (v : Byte) : (s.emit v).fault = s.fault := rfl
@[simp] theorem State.emit_out (s : State) (v : Byte) : (s.emit v).out = s.out ++ [v] := rfl
@[simp] theorem State.x_emit (s : State) (v : Byte) (q : Reg) : (s.emit v).x q = s.x q := rfl

@[simp] theorem State.halt_regs (s : State) : s.halt.regs = s.regs := rfl
@[simp] theorem State.halt_pc (s : State) : s.halt.pc = s.pc := rfl
@[simp] theorem State.halt_mem (s : State) : s.halt.mem = s.mem := rfl
@[simp] theorem State.halt_runState (s : State) : s.halt.runState = .halted := rfl
@[simp] theorem State.halt_fault (s : State) : s.halt.fault = s.fault := rfl
@[simp] theorem State.halt_out (s : State) : s.halt.out = s.out := rfl
@[simp] theorem State.x_halt (s : State) (q : Reg) : s.halt.x q = s.x q := rfl

@[simp] theorem State.takeFault_regs (s : State) (f : FaultRecord) : (s.takeFault f).regs = s.regs := rfl
@[simp] theorem State.takeFault_pc (s : State) (f : FaultRecord) : (s.takeFault f).pc = s.pc := rfl
@[simp] theorem State.takeFault_mem (s : State) (f : FaultRecord) : (s.takeFault f).mem = s.mem := rfl
@[simp] theorem State.takeFault_runState (s : State) (f : FaultRecord) : (s.takeFault f).runState = .faulted := rfl
@[simp] theorem State.takeFault_fault (s : State) (f : FaultRecord) : (s.takeFault f).fault = some f := rfl
@[simp] theorem State.takeFault_out (s : State) (f : FaultRecord) : (s.takeFault f).out = s.out := rfl
@[simp] theorem State.x_takeFault (s : State) (f : FaultRecord) (q : Reg) : (s.takeFault f).x q = s.x q := rfl

/-! ### `setMem` -/

@[simp] theorem State.setMem_regs (s : State) (m : Memory) : (s.setMem m).regs = s.regs := rfl
@[simp] theorem State.setMem_pc (s : State) (m : Memory) : (s.setMem m).pc = s.pc := rfl
@[simp] theorem State.setMem_mem (s : State) (m : Memory) : (s.setMem m).mem = m := rfl
@[simp] theorem State.setMem_runState (s : State) (m : Memory) : (s.setMem m).runState = s.runState := rfl
@[simp] theorem State.setMem_fault (s : State) (m : Memory) : (s.setMem m).fault = s.fault := rfl
@[simp] theorem State.setMem_out (s : State) (m : Memory) : (s.setMem m).out = s.out := rfl
@[simp] theorem State.x_setMem (s : State) (m : Memory) (q : Reg) : (s.setMem m).x q = s.x q := rfl

/-! ### Registers read through a state written out, and registers by their file -/

@[simp] theorem State.x_mk (f : RegFile) (pc : Pc) (m : Memory) (c : RunState) (e : Option FaultRecord)
    (o : List Byte) (q : Reg) : State.x ⟨f, pc, m, c, e, o⟩ q = f.get q := rfl
@[simp] theorem State.get_regs (s : State) (q : Reg) : s.regs.get q = s.x q := rfl

/-- Reset leaves every register 0 (R40). -/
@[simp] theorem State.x_reset (q : Reg) : State.reset.x q = 0 := by
  cases q <;> rfl

end Sys2Proof.Machine
end

