-- ==== Sys2Proof/Laws/Memory.lean ====
section
/-! SUPPORT. The laws of memory: a read after a write (20_memory.md rule R59), and that every memory operation keeps the
canonical form. -/

namespace Sys2Proof.Machine

theorem Memory.read_insert_same (m : Memory) (a : Nat) (v : Byte) (h : ∀ c ∈ m, c.1 ≠ a) :
    (Memory.insert m a v).read a = v := by
  induction m with
  | nil => simp [Memory.insert, Memory.read]
  | cons c m ih =>
    simp only [List.mem_cons, forall_eq_or_imp] at h
    simp only [Memory.insert]
    split
    · simp [Memory.read, h.1, ih h.2]
    · simp [Memory.read]

theorem Memory.read_insert_other (m : Memory) {a b : Nat} (v : Byte) (h : b ≠ a) :
    (Memory.insert m a v).read b = m.read b := by
  induction m with
  | nil => simp [Memory.insert, Memory.read, h.symm]
  | cons c m ih =>
    simp only [Memory.insert]
    split
    · simp [Memory.read, ih]
    · simp [Memory.read, h.symm]

theorem Memory.read_filter_same (m : Memory) (a : Nat) :
    Memory.read (m.filter (fun c => c.1 ≠ a)) a = 0 := by
  induction m with
  | nil => rfl
  | cons c m ih =>
    by_cases h : c.1 = a
    · simpa [List.filter_cons, h] using ih
    · simpa [List.filter_cons, h, Memory.read] using ih

theorem Memory.read_filter_other (m : Memory) {a b : Nat} (h : b ≠ a) :
    Memory.read (m.filter (fun c => c.1 ≠ a)) b = m.read b := by
  induction m with
  | nil => rfl
  | cons c m ih =>
    by_cases hc : c.1 = a
    · have : ¬ c.1 = b := fun e => h (e.symm.trans hc)
      simpa [List.filter_cons, hc, Memory.read, h.symm] using ih
    · by_cases hb : c.1 = b
      · simp [Memory.read, hb, h]
      · simpa [List.filter_cons, hc, Memory.read, hb] using ih

/-- A cell reads as what was last written to it. -/
@[simp] theorem Memory.read_write_same (m : Memory) (a : Nat) (v : Byte) : (m.write a v).read a = v := by
  unfold Memory.write
  split
  · next h => simpa [h] using Memory.read_filter_same m a
  · exact Memory.read_insert_same _ a v (by simp)

/-- A write leaves every other cell alone. -/
theorem Memory.read_write_other (m : Memory) {a b : Nat} (v : Byte) (h : b ≠ a) : (m.write a v).read b = m.read b := by
  unfold Memory.write
  split
  · exact Memory.read_filter_other m h
  · rw [Memory.read_insert_other _ v h, Memory.read_filter_other m h]

theorem Memory.read_write (m : Memory) (a b : Nat) (v : Byte) :
    (m.write a v).read b = if b = a then v else m.read b := by
  split
  · next h => rw [h, Memory.read_write_same]
  · next h => exact Memory.read_write_other m v h

theorem Memory.mem_insert (m : Memory) (a : Nat) (v : Byte) (c : Host.Cell) :
    c ∈ Memory.insert m a v → c = (a, v) ∨ c ∈ m := by
  induction m with
  | nil => simp [Memory.insert]
  | cons d m ih =>
    simp only [Memory.insert]
    split
    · simp only [List.mem_cons]
      rintro (h | h)
      · exact .inr (.inl h)
      · exact (ih h).imp_right .inr
    · simp

theorem Memory.pairwise_insert (m : Memory) (a : Nat) (v : Byte) (hm : m.Pairwise (fun c d => c.1 < d.1))
    (ha : ∀ c ∈ m, c.1 ≠ a) : (Memory.insert m a v).Pairwise (fun c d => c.1 < d.1) := by
  induction m with
  | nil => simp [Memory.insert]
  | cons c m ih =>
    rw [List.pairwise_cons] at hm
    simp only [List.mem_cons, forall_eq_or_imp] at ha
    simp only [Memory.insert]
    split
    · next h =>
      refine List.pairwise_cons.2 ⟨fun d hd => ?_, ih hm.2 ha.2⟩
      rcases Memory.mem_insert m a v d hd with rfl | hd
      · exact h
      · exact hm.1 d hd
    · next h =>
      have hac : a < c.1 := by omega
      refine List.pairwise_cons.2 ⟨fun d hd => ?_, List.pairwise_cons.2 hm⟩
      rcases List.mem_cons.1 hd with rfl | hd
      · exact hac
      · exact hac.trans (hm.1 d hd)

/-- A write to an address of memory keeps the canonical form. -/
theorem Memory.wf_write {m : Memory} (hm : m.wf) {a : Nat} (ha : a < 256) (v : Byte) : (m.write a v).wf := by
  have hp : (m.filter (fun c => c.1 ≠ a)).Pairwise (fun c d => c.1 < d.1) := hm.1.filter _
  have hc : ∀ c ∈ m.filter (fun c => c.1 ≠ a), c.1 < Config.memSize ∧ c.2 ≠ Config.unwrittenCell :=
    fun c h => hm.2 c (List.mem_filter.1 h).1
  unfold Memory.write
  split
  · exact ⟨hp, hc⟩
  · next hv =>
    refine ⟨Memory.pairwise_insert _ a v hp (by simp), fun c h => ?_⟩
    rcases Memory.mem_insert _ a v c h with rfl | h
    · exact ⟨ha, hv⟩
    · exact hc c h

/-- Placing bytes keeps the canonical form. -/
theorem Memory.wf_writeBytes {m : Memory} (hm : m.wf) (a : Nat) (bs : List Byte) : (m.writeBytes a bs).wf := by
  induction bs generalizing m a with
  | nil => exact hm
  | cons b bs ih =>
    simp only [Memory.writeBytes]
    split
    · next h => exact ih (Memory.wf_write hm h b) (a + 1)
    · exact ih hm (a + 1)

/-- Memory after reset is in canonical form. -/
theorem Memory.wf_reset : State.reset.mem.wf := by decide

/-- What any cell reads after bytes were placed at consecutive addresses within memory. -/
theorem Memory.read_writeBytes (m : Memory) (a : Nat) (bs : List Byte) (h : a + bs.length ≤ 256) (b : Nat) :
    (m.writeBytes a bs).read b = if a ≤ b then (bs[b - a]?).getD (m.read b) else m.read b := by
  induction bs generalizing m a with
  | nil => simp [Memory.writeBytes]
  | cons v bs ih =>
    simp only [List.length_cons] at h
    have ha : a < Config.memSize := by simp only [Config.memSize]; omega
    rw [Memory.writeBytes, if_pos ha, ih _ _ (by omega), Memory.read_write]
    by_cases h1 : a + 1 ≤ b
    · have hne : b ≠ a := by omega
      have hs : b - a = (b - (a + 1)) + 1 := by omega
      rw [if_pos h1, if_neg hne, if_pos (by omega), hs, List.getElem?_cons_succ]
    · by_cases h2 : b = a
      · subst h2
        simp
      · rw [if_neg h1, if_neg h2, if_neg (by omega)]

end Sys2Proof.Machine
end

