-- ==== Sys2Proof/Laws/Ops.lean ====
section
/-! SUPPORT. For each shared operation, what it can do: the provers cite these instead of unfolding the operation. -/

namespace Sys2Proof.Machine

/-! ### Ending an instruction -/

@[simp] theorem complete_ok (s t : State) : complete s (.ok t) = .next t := rfl
@[simp] theorem complete_error (s : State) (f : FaultRecord) : complete s (.error f) = .next (s.takeFault f) := rfl

/-- An instruction always ends in a next state: the one it computed, or its start with the fault taken. -/
theorem complete_cases (s : State) (r : Except FaultRecord State) :
    (∃ t, r = .ok t ∧ complete s r = .next t) ∨ (∃ f, r = .error f ∧ complete s r = .next (s.takeFault f)) := by
  cases r with
  | ok t => exact .inl ⟨t, rfl, rfl⟩
  | error f => exact .inr ⟨f, rfl, rfl⟩

/-! ### Running one operation after another -/

@[simp] theorem bind_ok {α β : Type} (a : α) (k : α → Except FaultRecord β) : ((Except.ok a : Except FaultRecord α) >>= k) = k a :=
  rfl
@[simp] theorem bind_error {α β : Type} (f : FaultRecord) (k : α → Except FaultRecord β) :
    ((Except.error f : Except FaultRecord α) >>= k) = .error f := rfl
@[simp] theorem pure_eq_ok {α : Type} (a : α) : (pure a : Except FaultRecord α) = .ok a := rfl

/-! ### Memory accesses -/

theorem memRead_inRange (s : State) {a : Nat} (h : a ≤ 255) : memRead s (a : Int) = .ok (s.mem.read a) := by
  unfold memRead
  rw [if_neg (by omega), Int.toNat_natCast]

theorem memRead_above (s : State) {a : Nat} (h : 255 < a) : memRead s (a : Int) = .error (.outOfBounds a) := by
  unfold memRead
  rw [if_pos (by omega)]

@[simp] theorem loadAtSp_eq (s : State) : loadAtSp s = .ok (s.mem.read (s.x .sp).toNat) :=
  memRead_inRange s (by have := (s.x .sp).isLt; omega)

@[simp] theorem storeAtSp_eq (s : State) (v : Byte) :
    storeAtSp s v = .ok (s.setMem (s.mem.write (s.x .sp).toNat v)) := by
  have := (s.x .sp).isLt
  unfold storeAtSp memWrite
  rw [if_neg (by omega), Int.toNat_natCast]

/-! ### The stack pointer and the return address -/

theorem spDecrement_zero {s : State} (h : s.x .sp = 0) : spDecrement s = .error (.outOfBounds (-1)) := if_pos h
theorem spDecrement_ok {s : State} (h : s.x .sp ≠ 0) : spDecrement s = .ok (s.setX .sp (s.x .sp - 1)) := if_neg h
theorem spIncrement_top {s : State} (h : s.x .sp = 255) : spIncrement s = .error (.outOfBounds 256) := if_pos h
theorem spIncrement_ok {s : State} (h : s.x .sp ≠ 255) : spIncrement s = .ok (s.setX .sp (s.x .sp + 1)) := if_neg h

theorem returnAddress_ok {s : State} (h : s.pc.toNat + 2 ≤ 255) :
    returnAddress s = .ok (BitVec.ofNat 8 (s.pc.toNat + 2)) := if_neg (by omega)
theorem returnAddress_above {s : State} (h : 255 < s.pc.toNat + 2) :
    returnAddress s = .error (.outOfBounds (s.pc.toNat + 2 : Nat)) := if_pos h

/-- A decrement that is not from 0 does not wrap (R152). -/
theorem toNat_sub_one {b : Byte} (h : b ≠ 0) : (b - 1).toNat + 1 = b.toNat := by
  have : b.toNat ≠ 0 := fun e => h (BitVec.eq_of_toNat_eq e)
  have := b.isLt
  rw [BitVec.toNat_sub]
  simp
  omega

/-- An increment that is not from 255 does not wrap (R152). -/
theorem toNat_add_one {b : Byte} (h : b ≠ 255) : (b + 1).toNat = b.toNat + 1 := by
  have : b.toNat ≠ 255 := fun e => h (BitVec.eq_of_toNat_eq e)
  have := b.isLt
  rw [BitVec.toNat_add]
  simp
  omega

/-! ### Register operands -/

@[simp] theorem regIndex_byte (r : Reg) : regIndex r.byte = .ok r := by cases r <;> rfl

theorem Reg.byte_injective {r q : Reg} (h : r.byte = q.byte) : r = q := by
  have := congrArg regIndex h
  simpa using this

@[simp] theorem Reg.byte_inj {r q : Reg} : r.byte = q.byte ↔ r = q := ⟨Reg.byte_injective, congrArg _⟩

/-- A byte of 0 to 7 is some register's operand byte (R24). -/
theorem exists_reg_of_le {b : Byte} (h : b.toNat ≤ 7) : ∃ r : Reg, b = r.byte := by
  have key : ∀ b : Byte, b.toNat ≤ 7 →
      b = Reg.r0.byte ∨ b = Reg.r1.byte ∨ b = Reg.r2.byte ∨ b = Reg.r3.byte ∨
      b = Reg.r4.byte ∨ b = Reg.r5.byte ∨ b = Reg.r6.byte ∨ b = Reg.r7.byte := by decide
  rcases key b h with h | h | h | h | h | h | h | h <;> exact ⟨_, h⟩

/-- A byte above 7 selects no register (R24). -/
theorem regIndex_above {b : Byte} (h : 7 < b.toNat) : regIndex b = .error (.outOfBounds b.toNat) := by
  unfold regIndex
  split <;> first | rfl | (simp at h)

/-- A register-index byte either names a register or raises the fault that records it (R24, R82). -/
theorem regIndex_cases (b : Byte) :
    (∃ r : Reg, b = r.byte) ∨ (7 < b.toNat ∧ regIndex b = .error (.outOfBounds b.toNat)) := by
  rcases Nat.lt_or_ge 7 b.toNat with h | h
  · exact .inr ⟨h, regIndex_above h⟩
  · exact .inl (exists_reg_of_le h)

@[simp] theorem regIndexes_bytes (r q : Reg) : regIndexes r.byte q.byte = .ok (r, q) := by
  simp [regIndexes]

theorem regIndexes_first {b1 : Byte} (h : 7 < b1.toNat) (b2 : Byte) :
    regIndexes b1 b2 = .error (.outOfBounds b1.toNat) := by
  simp [regIndexes, regIndex_above h]

theorem regIndexes_second (r : Reg) {b2 : Byte} (h : 7 < b2.toNat) :
    regIndexes r.byte b2 = .error (.outOfBounds b2.toNat) := by
  simp [regIndexes, regIndex_above h]

/-! ### Flags -/

/-- CMP's result is one of the three patterns, each with its relation (R170). -/
theorem compareFlags_cases (a b : Byte) :
    (a.toNat = b.toNat ∧ compareFlags a b = 0x01) ∨ (a.toNat < b.toNat ∧ compareFlags a b = 0x04) ∨
      (b.toNat < a.toNat ∧ compareFlags a b = 0x02) := by
  unfold compareFlags
  split
  · next h => exact .inl ⟨congrArg _ h, rfl⟩
  · next h =>
    have : a.toNat ≠ b.toNat := fun e => h (BitVec.eq_of_toNat_eq e)
    split
    · next h2 => exact .inr (.inl ⟨h2, rfl⟩)
    · exact .inr (.inr ⟨by omega, rfl⟩)

end Sys2Proof.Machine
end

