-- ==== Sys2Proof/Laws/Exec.lean ====
section
/-! SUPPORT. What each meaning does with legal operands, as one equation, and what any meaning can do, as one case
distinction. -/

namespace Sys2Proof.Machine

theorem execHlt_eq (s : State) : execHlt s = .next s.halt := rfl

theorem execLdi_reg (r : Reg) (v : Byte) (s : State) : execLdi r.byte v s = .next ((s.setX r v).advance 3) := by
  simp [execLdi]

theorem execPrn_reg (r : Reg) (s : State) : execPrn r.byte s = .next ((s.emit (s.x r)).advance 2) := by
  simp [execPrn]

/-- Reducing the exact sum modulo 256 is addition of bytes (R142). -/
theorem mod256_add (a b : Byte) : mod256 (a.toNat + b.toNat) = a + b := by
  simp [mod256, BitVec.ofNat_add]

/-- Reducing the exact product modulo 256 is multiplication of bytes (R142). -/
theorem mod256_mul (a b : Byte) : mod256 (a.toNat * b.toNat) = a * b := by
  simp [mod256, BitVec.ofNat_mul]

theorem execMul_reg (ra rb : Reg) (s : State) :
    execMul ra.byte rb.byte s = .next ((s.setX ra (mod256 ((s.x ra).toNat * (s.x rb).toNat))).advance 3) := by
  simp [execMul]

theorem execAdd_reg (ra rb : Reg) (s : State) :
    execAdd ra.byte rb.byte s = .next ((s.setX ra (mod256 ((s.x ra).toNat + (s.x rb).toNat))).advance 3) := by
  simp [execAdd]

theorem execPush_reg (r : Reg) {s : State} (h : s.x .sp ≠ 0) :
    execPush r.byte s = .next (((s.setX .sp (s.x .sp - 1)).setMem
      (s.mem.write (s.x .sp - 1).toNat (if r = .sp then s.x .sp - 1 else s.x r))).advance 2) := by
  simp [execPush, spDecrement_ok h]

theorem execPop_reg (r : Reg) {s : State} (h : (if r = .sp then s.mem.read (s.x .sp).toNat else s.x .sp) ≠ 255) :
    execPop r.byte s = .next (((s.setX r (s.mem.read (s.x .sp).toNat)).setX .sp
      ((if r = .sp then s.mem.read (s.x .sp).toNat else s.x .sp) + 1)).advance 2) := by
  have h' : (s.setX r (s.mem.read (s.x .sp).toNat)).x .sp ≠ 255 := by simpa [eq_comm] using h
  simp [execPop, spIncrement_ok h', eq_comm]

theorem execPop_top (r : Reg) {s : State} (h : (if r = .sp then s.mem.read (s.x .sp).toNat else s.x .sp) = 255) :
    execPop r.byte s = .next (s.takeFault (.outOfBounds 256)) := by
  have h' : (s.setX r (s.mem.read (s.x .sp).toNat)).x .sp = 255 := by simpa [eq_comm] using h
  simp [execPop, spIncrement_top h']

theorem execCall_reg (r : Reg) {s : State} (h : s.x .sp ≠ 0) (hp : s.pc.toNat + 2 ≤ 255) :
    execCall r.byte s = .next (((s.setX .sp (s.x .sp - 1)).setMem
      (s.mem.write (s.x .sp - 1).toNat (BitVec.ofNat 8 (s.pc.toNat + 2)))).setPc
        (zext9 (if r = .sp then s.x .sp - 1 else s.x r))) := by
  simp [execCall, spDecrement_ok h, returnAddress_ok hp]

theorem execRet_ok {s : State} (h : s.x .sp ≠ 255) :
    execRet s = .next ((s.setX .sp (s.x .sp + 1)).setPc (zext9 (s.mem.read (s.x .sp).toNat))) := by
  simp [execRet, spIncrement_ok h]

theorem execCmp_reg (ra rb : Reg) (s : State) :
    execCmp ra.byte rb.byte s = .next ((s.setX .fl (compareFlags (s.x ra) (s.x rb))).advance 3) := by
  simp [execCmp]

theorem execJmp_reg (r : Reg) (s : State) : execJmp r.byte s = .next (s.setPc (zext9 (s.x r))) := by
  simp [execJmp]

theorem execJeq_reg (r : Reg) (s : State) :
    execJeq r.byte s = .next (if s.equalFlag then s.setPc (zext9 (s.x r)) else s.advance 2) := by
  simp [execJeq]

theorem execJne_reg (r : Reg) (s : State) :
    execJne r.byte s = .next (if s.equalFlag then s.advance 2 else s.setPc (zext9 (s.x r))) := by
  simp [execJne]

/-! ### The faults of a meaning -/

theorem execLdi_fault {b : Byte} (h : 7 < b.toNat) (v : Byte) (s : State) :
    execLdi b v s = .next (s.takeFault (.outOfBounds b.toNat)) := by simp [execLdi, regIndex_above h]
theorem execPrn_fault {b : Byte} (h : 7 < b.toNat) (s : State) :
    execPrn b s = .next (s.takeFault (.outOfBounds b.toNat)) := by simp [execPrn, regIndex_above h]
theorem execPush_fault {b : Byte} (h : 7 < b.toNat) (s : State) :
    execPush b s = .next (s.takeFault (.outOfBounds b.toNat)) := by simp [execPush, regIndex_above h]
theorem execPop_fault {b : Byte} (h : 7 < b.toNat) (s : State) :
    execPop b s = .next (s.takeFault (.outOfBounds b.toNat)) := by simp [execPop, regIndex_above h]
theorem execCall_fault {b : Byte} (h : 7 < b.toNat) (s : State) :
    execCall b s = .next (s.takeFault (.outOfBounds b.toNat)) := by simp [execCall, regIndex_above h]
theorem execJmp_fault {b : Byte} (h : 7 < b.toNat) (s : State) :
    execJmp b s = .next (s.takeFault (.outOfBounds b.toNat)) := by simp [execJmp, regIndex_above h]
theorem execJeq_fault {b : Byte} (h : 7 < b.toNat) (s : State) :
    execJeq b s = .next (s.takeFault (.outOfBounds b.toNat)) := by simp [execJeq, regIndex_above h]
theorem execJne_fault {b : Byte} (h : 7 < b.toNat) (s : State) :
    execJne b s = .next (s.takeFault (.outOfBounds b.toNat)) := by simp [execJne, regIndex_above h]

theorem execPush_zero (r : Reg) {s : State} (h : s.x .sp = 0) :
    execPush r.byte s = .next (s.takeFault (.outOfBounds (-1))) := by simp [execPush, spDecrement_zero h]
theorem execCall_zero (r : Reg) {s : State} (h : s.x .sp = 0) :
    execCall r.byte s = .next (s.takeFault (.outOfBounds (-1))) := by simp [execCall, spDecrement_zero h]
theorem execCall_top (r : Reg) {s : State} (h : s.x .sp ≠ 0) (hp : 255 < s.pc.toNat + 2) :
    execCall r.byte s = .next (s.takeFault (.outOfBounds (s.pc.toNat + 2 : Nat))) := by
  simp [execCall, spDecrement_ok h, returnAddress_above hp]
theorem execRet_top {s : State} (h : s.x .sp = 255) : execRet s = .next (s.takeFault (.outOfBounds 256)) := by
  simp [execRet, spIncrement_top h]

/-- MUL, ADD and CMP with an index byte above 7 report the first such byte. -/
theorem execTwoRegs_fault {b1 b2 : Byte} {f : FaultRecord} (h : regIndexes b1 b2 = .error f) (s : State) :
    execMul b1 b2 s = .next (s.takeFault f) ∧ execAdd b1 b2 s = .next (s.takeFault f) ∧
      execCmp b1 b2 s = .next (s.takeFault f) := by
  simp [execMul, execAdd, execCmp, h]

/-! ### Every way an instruction can end -/

/-- Every way an instruction can end: HLT halts; a fault is taken in the state the instruction started in, for one of the
causes of 60_exceptions.md rule R193; or it completes as its own rule says, with legal operands. Facts about all instructions are derived from this. -/
inductive Ends (s : State) : Instr → State → Prop where
  | hlt : Ends s .hlt s.halt
  | badIndex (i : Instr) (b : Byte) : b ∈ i.regBytes → 7 < b.toNat → Ends s i (s.takeFault (.outOfBounds b.toNat))
  | pushAtZero (r : Reg) : s.x .sp = 0 → Ends s (.push r.byte) (s.takeFault (.outOfBounds (-1)))
  | callAtZero (r : Reg) : s.x .sp = 0 → Ends s (.call r.byte) (s.takeFault (.outOfBounds (-1)))
  | callAtTop (r : Reg) : s.x .sp ≠ 0 → 255 < s.pc.toNat + 2 →
      Ends s (.call r.byte) (s.takeFault (.outOfBounds (s.pc.toNat + 2 : Nat)))
  | popAtTop (r : Reg) : (if r = .sp then s.mem.read (s.x .sp).toNat else s.x .sp) = 255 →
      Ends s (.pop r.byte) (s.takeFault (.outOfBounds 256))
  | retAtTop : s.x .sp = 255 → Ends s .ret (s.takeFault (.outOfBounds 256))
  | ldi (r : Reg) (v : Byte) : Ends s (.ldi r.byte v) ((s.setX r v).advance 3)
  | prn (r : Reg) : Ends s (.prn r.byte) ((s.emit (s.x r)).advance 2)
  | mul (ra rb : Reg) :
      Ends s (.mul ra.byte rb.byte) ((s.setX ra (mod256 ((s.x ra).toNat * (s.x rb).toNat))).advance 3)
  | add (ra rb : Reg) :
      Ends s (.add ra.byte rb.byte) ((s.setX ra (mod256 ((s.x ra).toNat + (s.x rb).toNat))).advance 3)
  | push (r : Reg) : s.x .sp ≠ 0 → Ends s (.push r.byte) (((s.setX .sp (s.x .sp - 1)).setMem
      (s.mem.write (s.x .sp - 1).toNat (if r = .sp then s.x .sp - 1 else s.x r))).advance 2)
  | pop (r : Reg) : (if r = .sp then s.mem.read (s.x .sp).toNat else s.x .sp) ≠ 255 →
      Ends s (.pop r.byte) (((s.setX r (s.mem.read (s.x .sp).toNat)).setX .sp
        ((if r = .sp then s.mem.read (s.x .sp).toNat else s.x .sp) + 1)).advance 2)
  | call (r : Reg) : s.x .sp ≠ 0 → s.pc.toNat + 2 ≤ 255 →
      Ends s (.call r.byte) (((s.setX .sp (s.x .sp - 1)).setMem
        (s.mem.write (s.x .sp - 1).toNat (BitVec.ofNat 8 (s.pc.toNat + 2)))).setPc
          (zext9 (if r = .sp then s.x .sp - 1 else s.x r)))
  | ret : s.x .sp ≠ 255 → Ends s .ret ((s.setX .sp (s.x .sp + 1)).setPc (zext9 (s.mem.read (s.x .sp).toNat)))
  | cmp (ra rb : Reg) : Ends s (.cmp ra.byte rb.byte) ((s.setX .fl (compareFlags (s.x ra) (s.x rb))).advance 3)
  | jmp (r : Reg) : Ends s (.jmp r.byte) (s.setPc (zext9 (s.x r)))
  | jeq (r : Reg) : Ends s (.jeq r.byte) (if s.equalFlag then s.setPc (zext9 (s.x r)) else s.advance 2)
  | jne (r : Reg) : Ends s (.jne r.byte) (if s.equalFlag then s.advance 2 else s.setPc (zext9 (s.x r)))

/-- Two register operands either name two registers, or the first byte above 7 is the fault. -/
theorem regIndexes_cases (b1 b2 : Byte) :
    (∃ ra rb : Reg, b1 = ra.byte ∧ b2 = rb.byte) ∨ (7 < b1.toNat ∧ regIndexes b1 b2 = .error (.outOfBounds b1.toNat)) ∨
      (∃ ra : Reg, b1 = ra.byte ∧ 7 < b2.toNat ∧ regIndexes b1 b2 = .error (.outOfBounds b2.toNat)) := by
  rcases regIndex_cases b1 with ⟨ra, rfl⟩ | ⟨h1, -⟩
  · rcases regIndex_cases b2 with ⟨rb, rfl⟩ | ⟨h2, -⟩
    · exact .inl ⟨ra, rb, rfl, rfl⟩
    · exact .inr (.inr ⟨ra, rfl, h2, regIndexes_second ra h2⟩)
  · exact .inr (.inl ⟨h1, regIndexes_first h1 b2⟩)

/-- An instruction over two registers completes, or takes a fault. -/
theorem twoRegs_ends {i : Byte → Byte → Instr} {k : Reg → Reg → State} {s : State} (b1 b2 : Byte)
    (hk : ∀ ra rb : Reg, Ends s (i ra.byte rb.byte) (k ra rb)) (hi : (i b1 b2).regBytes = [b1, b2]) :
    ∃ t, complete s (regIndexes b1 b2 >>= fun p => .ok (k p.1 p.2)) = .next t ∧ Ends s (i b1 b2) t := by
  rcases regIndexes_cases b1 b2 with ⟨ra, rb, rfl, rfl⟩ | ⟨h7, h⟩ | ⟨-, -, h7, h⟩
  · exact ⟨_, by simp, hk ra rb⟩
  · exact ⟨_, by rw [h]; rfl, .badIndex _ _ (by simp [hi]) h7⟩
  · exact ⟨_, by rw [h]; rfl, .badIndex _ _ (by simp [hi]) h7⟩

/-- Every instruction answers a next state, in one of the ways of `Ends`. -/
theorem exec_ends (i : Instr) (s : State) : ∃ t, exec i s = .next t ∧ Ends s i t := by
  cases i with
  | hlt => exact ⟨_, rfl, .hlt⟩
  | ldi b v =>
    rcases regIndex_cases b with ⟨r, rfl⟩ | ⟨h, -⟩
    · exact ⟨_, execLdi_reg r v s, .ldi r v⟩
    · exact ⟨_, execLdi_fault h v s, .badIndex _ _ (by simp [Instr.regBytes]) h⟩
  | prn b =>
    rcases regIndex_cases b with ⟨r, rfl⟩ | ⟨h, -⟩
    · exact ⟨_, execPrn_reg r s, .prn r⟩
    · exact ⟨_, execPrn_fault h s, .badIndex _ _ (by simp [Instr.regBytes]) h⟩
  | mul b c => exact twoRegs_ends b c .mul rfl
  | add b c => exact twoRegs_ends b c .add rfl
  | push b =>
    rcases regIndex_cases b with ⟨r, rfl⟩ | ⟨h, -⟩
    · by_cases h0 : s.x .sp = 0
      · exact ⟨_, execPush_zero r h0, .pushAtZero r h0⟩
      · exact ⟨_, execPush_reg r h0, .push r h0⟩
    · exact ⟨_, execPush_fault h s, .badIndex _ _ (by simp [Instr.regBytes]) h⟩
  | pop b =>
    rcases regIndex_cases b with ⟨r, rfl⟩ | ⟨h, -⟩
    · by_cases h0 : (if r = .sp then s.mem.read (s.x .sp).toNat else s.x .sp) = 255
      · exact ⟨_, execPop_top r h0, .popAtTop r h0⟩
      · exact ⟨_, execPop_reg r h0, .pop r h0⟩
    · exact ⟨_, execPop_fault h s, .badIndex _ _ (by simp [Instr.regBytes]) h⟩
  | call b =>
    rcases regIndex_cases b with ⟨r, rfl⟩ | ⟨h, -⟩
    · by_cases h0 : s.x .sp = 0
      · exact ⟨_, execCall_zero r h0, .callAtZero r h0⟩
      · rcases Nat.lt_or_ge 255 (s.pc.toNat + 2) with hp | hp
        · exact ⟨_, execCall_top r h0 hp, .callAtTop r h0 hp⟩
        · exact ⟨_, execCall_reg r h0 hp, .call r h0 hp⟩
    · exact ⟨_, execCall_fault h s, .badIndex _ _ (by simp [Instr.regBytes]) h⟩
  | ret =>
    by_cases h0 : s.x .sp = 255
    · exact ⟨_, execRet_top h0, .retAtTop h0⟩
    · exact ⟨_, execRet_ok h0, .ret h0⟩
  | cmp b c => exact twoRegs_ends b c .cmp rfl
  | jmp b =>
    rcases regIndex_cases b with ⟨r, rfl⟩ | ⟨h, -⟩
    · exact ⟨_, execJmp_reg r s, .jmp r⟩
    · exact ⟨_, execJmp_fault h s, .badIndex _ _ (by simp [Instr.regBytes]) h⟩
  | jeq b =>
    rcases regIndex_cases b with ⟨r, rfl⟩ | ⟨h, -⟩
    · exact ⟨_, execJeq_reg r s, .jeq r⟩
    · exact ⟨_, execJeq_fault h s, .badIndex _ _ (by simp [Instr.regBytes]) h⟩
  | jne b =>
    rcases regIndex_cases b with ⟨r, rfl⟩ | ⟨h, -⟩
    · exact ⟨_, execJne_reg r s, .jne r⟩
    · exact ⟨_, execJne_fault h s, .badIndex _ _ (by simp [Instr.regBytes]) h⟩

/-- What `exec` answers is one of the ways of `Ends`. -/
theorem ends_of_exec {i : Instr} {s t : State} (h : exec i s = .next t) : Ends s i t := by
  obtain ⟨u, hu, he⟩ := exec_ends i s
  rw [h] at hu
  cases hu
  exact he

end Sys2Proof.Machine
end

