-- ==== Sys2Proof/Laws/PerInstr.lean ====
section
/-! SUPPORT. A statement about every instruction as syntax, one lemma per constructor: its encoding begins with a defined
opcode byte whose bits 7:6 count the operand bytes that follow (30_encoding.md rule R81). -/

namespace Sys2Proof.Laws.EncodingLength

/-- The encoding is an opcode byte with a form, followed by as many bytes as its two high bits say. -/
def Statement (i : Instr) : Prop :=
  ∃ op operands, encode i = op :: operands ∧ operands.length = operandCount op ∧ (opcodeForm op).isSome = true

theorem hlt : Statement .hlt := ⟨_, _, rfl, rfl, rfl⟩
theorem ldi (reg imm8 : Byte) : Statement (.ldi reg imm8) :=
  ⟨_, _, rfl, by simp [operandCount], rfl⟩
theorem prn (reg : Byte) : Statement (.prn reg) := ⟨_, _, rfl, rfl, rfl⟩
theorem mul (regA regB : Byte) : Statement (.mul regA regB) :=
  ⟨_, _, rfl, by simp [operandCount], rfl⟩
theorem add (regA regB : Byte) : Statement (.add regA regB) :=
  ⟨_, _, rfl, by simp [operandCount], rfl⟩
theorem push (reg : Byte) : Statement (.push reg) := ⟨_, _, rfl, rfl, rfl⟩
theorem pop (reg : Byte) : Statement (.pop reg) := ⟨_, _, rfl, rfl, rfl⟩
theorem call (reg : Byte) : Statement (.call reg) := ⟨_, _, rfl, rfl, rfl⟩
theorem ret : Statement .ret := ⟨_, _, rfl, rfl, rfl⟩
theorem cmp (regA regB : Byte) : Statement (.cmp regA regB) :=
  ⟨_, _, rfl, by simp [operandCount], rfl⟩
theorem jmp (reg : Byte) : Statement (.jmp reg) := ⟨_, _, rfl, rfl, rfl⟩
theorem jeq (reg : Byte) : Statement (.jeq reg) := ⟨_, _, rfl, rfl, rfl⟩
theorem jne (reg : Byte) : Statement (.jne reg) := ⟨_, _, rfl, rfl, rfl⟩

end Sys2Proof.Laws.EncodingLength
end

