-- ==== Sys2Proof/Laws/Step.lean ====
section
/-! SUPPORT. What the look-up, the fetch and the step can do (40_dispatch_and_halt.md rules R110 to R113). -/

namespace Sys2Proof.Machine

/-! ### The look-up -/

/-- The bytes without a form are the ones outside the table (R86, R88). -/
theorem opcodeForm_eq_none {op : Byte} : opcodeForm op = none ↔ op ∉ definedOpcodes := by
  have key : ∀ op : Byte, (opcodeForm op).isNone = decide (op ∉ definedOpcodes) := by decide
  rw [← Option.isNone_iff_eq_none, key, decide_eq_true_iff]

/-- The two opcodes without operands (R87). -/
theorem opcodeForm_eq_zero {op : Byte} {i : Instr} (h : opcodeForm op = some (.zero i)) :
    (op = 0x01 ∧ i = .hlt) ∨ (op = 0x11 ∧ i = .ret) := by
  unfold opcodeForm at h
  split at h <;> simp_all

/-- The seven opcodes with one operand (R87). -/
theorem opcodeForm_eq_one {op : Byte} {mk : Byte → Instr} (h : opcodeForm op = some (.one mk)) :
    (op = 0x45 ∧ mk = .push) ∨ (op = 0x46 ∧ mk = .pop) ∨ (op = 0x47 ∧ mk = .prn) ∨ (op = 0x50 ∧ mk = .call) ∨
      (op = 0x54 ∧ mk = .jmp) ∨ (op = 0x55 ∧ mk = .jeq) ∨ (op = 0x56 ∧ mk = .jne) := by
  unfold opcodeForm at h
  split at h <;> simp_all

/-- The four opcodes with two operands (R87). -/
theorem opcodeForm_eq_two {op : Byte} {mk : Byte → Byte → Instr} (h : opcodeForm op = some (.two mk)) :
    (op = 0x82 ∧ mk = .ldi) ∨ (op = 0xA0 ∧ mk = .add) ∨ (op = 0xA2 ∧ mk = .mul) ∨ (op = 0xA7 ∧ mk = .cmp) := by
  unfold opcodeForm at h
  split at h <;> simp_all

/-! ### The fetch -/

theorem fetch_above {s : State} (h : 255 < s.pc.toNat) : fetch s = .error (.outOfBounds s.pc.toNat) := by
  simp [fetch, memRead_above s h]

theorem fetch_illegal {s : State} (h : s.pc.toNat ≤ 255) (ho : opcodeForm (s.mem.read s.pc.toNat) = none) :
    fetch s = .error (.illegalInstruction (s.mem.read s.pc.toNat) s.pc.toNat) := by
  simp [fetch, memRead_inRange s h, ho]

theorem fetch_zero {s : State} {i : Instr} (h : s.pc.toNat ≤ 255)
    (ho : opcodeForm (s.mem.read s.pc.toNat) = some (.zero i)) : fetch s = .ok i := by
  simp [fetch, memRead_inRange s h, ho]

theorem fetch_one {s : State} {mk : Byte → Instr} (h : s.pc.toNat + 1 ≤ 255)
    (ho : opcodeForm (s.mem.read s.pc.toNat) = some (.one mk)) :
    fetch s = .ok (mk (s.mem.read (s.pc.toNat + 1))) := by
  simp only [fetch, memRead_inRange s (Nat.le_of_succ_le h), memRead_inRange s h, ho, bind_ok, pure_eq_ok]

theorem fetch_one_top {s : State} {mk : Byte → Instr} (h : s.pc.toNat = 255)
    (ho : opcodeForm (s.mem.read s.pc.toNat) = some (.one mk)) : fetch s = .error (.outOfBounds 256) := by
  simp only [fetch, memRead_inRange s h.le, memRead_above s (show 255 < s.pc.toNat + 1 by omega), ho, bind_ok,
    bind_error]
  rw [h]
  rfl

theorem fetch_two {s : State} {mk : Byte → Byte → Instr} (h : s.pc.toNat + 2 ≤ 255)
    (ho : opcodeForm (s.mem.read s.pc.toNat) = some (.two mk)) :
    fetch s = .ok (mk (s.mem.read (s.pc.toNat + 1)) (s.mem.read (s.pc.toNat + 2))) := by
  simp only [fetch, memRead_inRange s (show s.pc.toNat ≤ 255 by omega),
    memRead_inRange s (show s.pc.toNat + 1 ≤ 255 by omega), memRead_inRange s h, ho, bind_ok, pure_eq_ok]

theorem fetch_two_top {s : State} {mk : Byte → Byte → Instr} (h : s.pc.toNat = 254 ∨ s.pc.toNat = 255)
    (ho : opcodeForm (s.mem.read s.pc.toNat) = some (.two mk)) : fetch s = .error (.outOfBounds 256) := by
  rcases h with h | h
  · simp only [fetch, memRead_inRange s (show s.pc.toNat ≤ 255 by omega),
      memRead_inRange s (show s.pc.toNat + 1 ≤ 255 by omega), memRead_above s (show 255 < s.pc.toNat + 2 by omega), ho,
      bind_ok, bind_error]
    rw [h]
    rfl
  · simp only [fetch, memRead_inRange s h.le, memRead_above s (show 255 < s.pc.toNat + 1 by omega), ho, bind_ok,
      bind_error]
    rw [h]
    rfl

/-- Every way a fetch can end (R111 to R113). -/
theorem fetch_cases (s : State) :
    (255 < s.pc.toNat ∧ fetch s = .error (.outOfBounds s.pc.toNat)) ∨
    (s.pc.toNat ≤ 255 ∧ s.mem.read s.pc.toNat ∉ definedOpcodes ∧
      fetch s = .error (.illegalInstruction (s.mem.read s.pc.toNat) s.pc.toNat)) ∨
    (∃ i, s.pc.toNat ≤ 255 ∧ opcodeForm (s.mem.read s.pc.toNat) = some (.zero i) ∧ fetch s = .ok i) ∨
    (∃ mk, opcodeForm (s.mem.read s.pc.toNat) = some (.one mk) ∧
      ((s.pc.toNat = 255 ∧ fetch s = .error (.outOfBounds 256)) ∨
        (s.pc.toNat ≤ 254 ∧ fetch s = .ok (mk (s.mem.read (s.pc.toNat + 1)))))) ∨
    (∃ mk, opcodeForm (s.mem.read s.pc.toNat) = some (.two mk) ∧
      (((s.pc.toNat = 254 ∨ s.pc.toNat = 255) ∧ fetch s = .error (.outOfBounds 256)) ∨
        (s.pc.toNat ≤ 253 ∧
          fetch s = .ok (mk (s.mem.read (s.pc.toNat + 1)) (s.mem.read (s.pc.toNat + 2)))))) := by
  rcases Nat.lt_or_ge 255 s.pc.toNat with h | h
  · exact .inl ⟨h, fetch_above h⟩
  refine .inr ?_
  match ho : opcodeForm (s.mem.read s.pc.toNat) with
  | none => exact .inl ⟨h, opcodeForm_eq_none.1 ho, fetch_illegal h ho⟩
  | some (.zero i) => exact .inr (.inl ⟨i, h, rfl, fetch_zero h ho⟩)
  | some (.one mk) =>
    refine .inr (.inr (.inl ⟨mk, rfl, ?_⟩))
    rcases Nat.lt_or_ge s.pc.toNat 255 with h1 | h1
    · exact .inr ⟨by omega, fetch_one (by omega) ho⟩
    · exact .inl ⟨by omega, fetch_one_top (by omega) ho⟩
  | some (.two mk) =>
    refine .inr (.inr (.inr ⟨mk, rfl, ?_⟩))
    rcases Nat.lt_or_ge s.pc.toNat 254 with h1 | h1
    · exact .inr ⟨by omega, fetch_two (by omega) ho⟩
    · exact .inl ⟨by omega, fetch_two_top (by omega) ho⟩

/-- A fetched instruction lies wholly at or below address 255 (R56, R113). -/
theorem fetch_ok_length {s : State} {i : Instr} (h : fetch s = .ok i) : s.pc.toNat + (encode i).length ≤ 256 := by
  rcases fetch_cases s with ⟨-, hf⟩ | ⟨-, -, hf⟩ | ⟨j, hp, ho, hf⟩ | ⟨mk, ho, ⟨-, hf⟩ | ⟨hp, hf⟩⟩ |
    ⟨mk, ho, ⟨-, hf⟩ | ⟨hp, hf⟩⟩ <;> rw [hf] at h <;> cases h
  · rcases opcodeForm_eq_zero ho with ⟨-, rfl⟩ | ⟨-, rfl⟩ <;> simp only [encode, List.length_cons, List.length_nil] <;> omega
  · rcases opcodeForm_eq_one ho with h | h | h | h | h | h | h <;> obtain ⟨-, rfl⟩ := h <;>
      simp only [encode, List.length_cons, List.length_nil] <;> omega
  · rcases opcodeForm_eq_two ho with h | h | h | h <;> obtain ⟨-, rfl⟩ := h <;>
      simp only [encode, List.length_cons, List.length_nil] <;> omega

/-- Only the byte 0x01 is fetched as HLT (R87). -/
theorem fetch_hlt {s : State} (h : fetch s = .ok .hlt) : s.pc.toNat ≤ 255 ∧ s.mem.read s.pc.toNat = 0x01 := by
  rcases fetch_cases s with ⟨-, hf⟩ | ⟨-, -, hf⟩ | ⟨j, hp, ho, hf⟩ | ⟨mk, ho, ⟨-, hf⟩ | ⟨hp, hf⟩⟩ |
    ⟨mk, ho, ⟨-, hf⟩ | ⟨hp, hf⟩⟩ <;> rw [hf] at h
  iterate 2 exact absurd h (by simp)
  · rcases opcodeForm_eq_zero ho with ⟨h1, -⟩ | ⟨-, rfl⟩
    · exact ⟨hp, h1⟩
    · exact absurd h (by simp)
  · exact absurd h (by simp)
  · rcases opcodeForm_eq_one ho with h1 | h1 | h1 | h1 | h1 | h1 | h1 <;> rw [h1.2] at h <;> exact absurd h (by simp)
  · exact absurd h (by simp)
  · rcases opcodeForm_eq_two ho with h1 | h1 | h1 | h1 <;> rw [h1.2] at h <;> exact absurd h (by simp)

/-- The instruction fetched is the one the decoder reads from the bytes at `pc` (R111 to R113). -/
theorem decode_window {s : State} {i : Instr} (h : fetch s = .ok i) : ∃ rest, decode s.window = .ok (i, rest) := by
  have w : ∀ p : Nat, p ≤ 255 → (([0, 1, 2].map (p + ·)).filter (· ≤ 255)).map s.mem.read =
      s.mem.read p :: (if p ≤ 254 then s.mem.read (p + 1) :: (if p ≤ 253 then [s.mem.read (p + 2)] else []) else []) := by
    intro p hp
    rcases Nat.lt_or_ge 253 p with h3 | h3
    · rcases Nat.lt_or_ge 254 p with h4 | h4 <;>
        simp [hp, Nat.not_le.2 h3, h4, Nat.not_le.2, show p + 1 ≤ 255 ↔ p ≤ 254 by omega,
          show p + 2 ≤ 255 ↔ p ≤ 253 by omega]
    · simp [hp, h3, show p ≤ 254 by omega, show p + 1 ≤ 255 by omega, show p + 2 ≤ 255 by omega]
  have hw := w s.pc.toNat
  rcases fetch_cases s with ⟨-, hf⟩ | ⟨-, -, hf⟩ | ⟨j, hp, ho, hf⟩ | ⟨mk, ho, ⟨-, hf⟩ | ⟨hp, hf⟩⟩ |
    ⟨mk, ho, ⟨-, hf⟩ | ⟨hp, hf⟩⟩ <;> rw [hf] at h <;> cases h
  · exact ⟨_, by rw [State.window, hw hp]; simp only [decode, ho]; rfl⟩
  · exact ⟨_, by rw [State.window, hw (by omega), if_pos hp]; simp only [decode, ho]; rfl⟩
  · exact ⟨_, by rw [State.window, hw (by omega), if_pos (by omega), if_pos hp]; simp only [decode, ho]; rfl⟩

/-! ### The step -/

theorem step_running {s : State} (h : s.runState = .running) : step s = cycle s := by
  simp [step, h]

theorem step_of_fetch {s : State} {i : Instr} (h : s.runState = .running) (hf : fetch s = .ok i) :
    step s = exec i s := by
  simp [step_running h, cycle, hf]

theorem step_of_fetch_error {s : State} {f : FaultRecord} (h : s.runState = .running) (hf : fetch s = .error f) :
    step s = .next (s.takeFault f) := by
  simp [step_running h, cycle, hf]

/-- Outside Running the engine has no step (R110). -/
theorem step_not_running {s t : State} (h : s.runState ≠ .running) : step s ≠ .next t := by
  unfold step
  cases hr : s.runState <;> simp_all

/-- Where a step answers a next state the engine was running, and the step either took a fault of the fetch or ran the
fetched instruction. -/
theorem step_next {s t : State} (h : step s = .next t) :
    s.runState = .running ∧
      ((∃ f, fetch s = .error f ∧ t = s.takeFault f) ∨ (∃ i, fetch s = .ok i ∧ exec i s = .next t ∧ Ends s i t)) := by
  by_cases hr : s.runState = .running
  · refine ⟨hr, ?_⟩
    cases hf : fetch s with
    | error f =>
      rw [step_of_fetch_error hr hf] at h
      cases h
      exact .inl ⟨f, rfl, rfl⟩
    | ok i =>
      rw [step_of_fetch hr hf] at h
      exact .inr ⟨i, rfl, h, ends_of_exec h⟩
  · exact absurd h (step_not_running hr)

end Sys2Proof.Machine
end

