-- ==== Sys2Proof/Tests/Slice0.lean ====
section
/-! SUPPORT. Tests of the model against words written out from 30_encoding.md and the single-step vectors of
95_test_vectors.md (each named in its test), and, for every statement with hypotheses, states that meet them. -/

namespace Sys2Proof.Tests

open Sys2Proof.Machine

/-! ### Helpers -/

/-- A running engine, as the "before" column of a vector gives it: reset, changed in `pc`, some registers, some cells. -/
def start (pc : Pc) (xs : List (Reg × Byte)) (cells : List Host.Cell) : State :=
  { xs.foldl (fun s c => s.setX c.1 c.2) State.reset with
    pc := pc, runState := .running, mem := cells.foldl (fun m c => m.write c.1 c.2) [] }

/-- The cells that hold `bytes` from `a` on. -/
def bytesAt : Nat → List Byte → List Host.Cell
  | _, [] => []
  | a, b :: bs => (a, b) :: bytesAt (a + 1) bs

/-- The next state of an outcome, if it is one. -/
def next? : Result → Option State
  | .next t => some t
  | .fault _ => none
  | .refused _ => none

/-- What one step of `s` leaves in the registers `rs`, and the new `pc`. -/
def regsAndPc (s : State) (rs : List Reg) : Option (List Byte × Pc) := (next? (step s)).map fun t => (rs.map t.x, t.pc)

/-- A faulting step: the record, and whether everything else is as it was. -/
def faultOnly (s : State) : Option (Option FaultRecord × Bool) :=
  (next? (step s)).map fun t =>
    (t.fault, decide (t = { s with fault := t.fault, runState := .faulted }))

/-! ### WellFormed: an ill-formed term for each check (R82) -/

theorem test_wf_prn : (Instr.prn 8).wellFormed = false := by decide
theorem test_wf_push : (Instr.push 0x0F).wellFormed = false := by decide
theorem test_wf_pop : (Instr.pop 0x80).wellFormed = false := by decide
theorem test_wf_call : (Instr.call 0xFF).wellFormed = false := by decide
theorem test_wf_jmp : (Instr.jmp 8).wellFormed = false := by decide
theorem test_wf_jeq : (Instr.jeq 9).wellFormed = false := by decide
theorem test_wf_jne : (Instr.jne 8).wellFormed = false := by decide
theorem test_wf_ldi : (Instr.ldi 8 1).wellFormed = false := by decide
theorem test_wf_mul : (Instr.mul 8 0).wellFormed = false ∧ (Instr.mul 0 8).wellFormed = false := by decide
theorem test_wf_add : (Instr.add 9 7).wellFormed = false ∧ (Instr.add 7 9).wellFormed = false := by decide
theorem test_wf_cmp : (Instr.cmp 8 1).wellFormed = false ∧ (Instr.cmp 1 8).wellFormed = false := by decide
theorem test_wf_accepts : (Instr.ldi 7 255).wellFormed = true ∧ (Instr.add 7 7).wellFormed = true ∧
    Instr.hlt.wellFormed = true ∧ Instr.ret.wellFormed = true := by decide

/-! ### Decode: opcode bytes of R86 bit by bit, operands of R80 -/

theorem test_decode_hlt : decode [0b00000001] = .ok (.hlt, []) := by rfl
theorem test_decode_ldi : decode [0b10000010, 0b00000011, 0b11111111] = .ok (.ldi 3 255, []) := by rfl
theorem test_decode_prn : decode [0b01000111, 0b00000110] = .ok (.prn 6, []) := by rfl
theorem test_decode_mul : decode [0b10100010, 0b00000010, 0b00000101] = .ok (.mul 2 5, []) := by rfl
theorem test_decode_add : decode [0b10100000, 0b00000000, 0b00000001] = .ok (.add 0 1, []) := by rfl
theorem test_decode_push : decode [0b01000101, 0b00000111] = .ok (.push 7, []) := by rfl
theorem test_decode_pop : decode [0b01000110, 0b00000001] = .ok (.pop 1, []) := by rfl
theorem test_decode_call : decode [0b01010000, 0b00000010] = .ok (.call 2, []) := by rfl
theorem test_decode_ret : decode [0b00010001, 0b01000111] = .ok (.ret, [0x47]) := by rfl
theorem test_decode_cmp : decode [0b10100111, 0b00000100, 0b00000000] = .ok (.cmp 4 0, []) := by rfl
theorem test_decode_jmp : decode [0b01010100, 0b00000101] = .ok (.jmp 5, []) := by rfl
theorem test_decode_jeq : decode [0b01010101, 0b00000001] = .ok (.jeq 1, []) := by rfl
theorem test_decode_jne : decode [0b01010110, 0b00000010] = .ok (.jne 2, []) := by rfl
theorem test_decode_refuses : decode [] = .error .noOpcode ∧ decode [0xA1, 0, 0] = .error (.illegalOpcode 0xA1) ∧
    decode [0x00] = .error (.illegalOpcode 0x00) ∧ decode [0xFF] = .error (.illegalOpcode 0xFF) ∧
    decode [0x82] = .error (.missingOperand 1) ∧ decode [0x82, 9] = .error (.missingOperand 2) ∧
    decode [0x47] = .error (.missingOperand 1) := ⟨rfl, rfl, rfl, rfl, rfl, rfl, rfl⟩
/-- The opcode table's numbering: the opcode byte is bits 7:0, the first operand bits 15:8. -/
theorem test_decodeTableWord : decodeTableWord 24 0x080082 = some (.ldi 0 8) ∧ decodeTableWord 8 0x47 = some (.prn 0) ∧
    decodeTableWord 16 0x0756 = some (.jne 7) ∧ decodeTableWord 8 0x00 = none := by decide
theorem test_withFetchWord : regsAndPc (State.reset.withFetchWord 24 0xFF0582) [.r5] = some ([255], 3) := by decide

/-! ### Dispatch and HLT -/

/-- DX1. -/
theorem test_dx1 : (next? (step (start 11 [] [(11, 0x01)]))).map (fun t => (t.runState, t.pc)) = some (.halted, 11) := by
  decide
/-- DX2. -/
theorem test_dx2 : (next? (step (start 255 [] [(255, 0x01)]))).map (fun t => (t.runState, t.pc)) =
    some (.halted, 255) := by decide
/-- DX5. -/
theorem test_dx5 : faultOnly (start 255 [] [(255, 0xFF)]) = some (some (.illegalInstruction 0xFF 255), true) := by decide
/-- DX6. -/
theorem test_dx6 : faultOnly (start 256 [] []) = some (some (.outOfBounds 256), true) := by decide
/-- DX7. -/
theorem test_dx7 : faultOnly (start 0x10 [] [(0x10, 0xA1)]) = some (some (.illegalInstruction 0xA1 0x10), true) := by decide

/-! ### LDI and PRN -/

/-- LD8. -/
theorem test_ld8 : regsAndPc (start 253 [] (bytesAt 253 [0x82, 1, 5])) [.r0, .r1] = some ([0, 5], 256) := by decide
/-- LD11. -/
theorem test_ld11 : faultOnly (start 254 [] (bytesAt 254 [0x82, 9])) = some (some (.outOfBounds 256), true) := by decide
/-- PR7. -/
theorem test_pr7 : (next? (step { start 0 [(.r0, 3)] (bytesAt 0 [0x47, 0]) with out := [1, 2] })).map
    (fun t => (t.out, t.pc)) = some ([1, 2, 3], 2) := by decide
/-- PR5. -/
theorem test_pr5 : faultOnly (start 0 [] (bytesAt 0 [0x47, 8])) = some (some (.outOfBounds 8), true) := by decide

/-! ### MUL and ADD -/

/-- MU6. -/
theorem test_mu6 : regsAndPc (start 0 [(.r0, 200), (.r1, 100)] (bytesAt 0 [0xA2, 0, 1])) [.r0, .r1] =
    some ([32, 100], 3) := by decide
/-- MU7. -/
theorem test_mu7 : regsAndPc (start 0 [(.r3, 13)] (bytesAt 0 [0xA2, 3, 3])) [.r3] = some ([169], 3) := by decide
/-- AD12. -/
theorem test_ad12 : regsAndPc (start 0 [(.r6, 4), (.r0, 255), (.r1, 1)] (bytesAt 0 [0xA0, 0, 1])) [.r0, .r1, .r6] =
    some ([0, 1, 4], 3) := by decide
/-- AD11. -/
theorem test_ad11 : faultOnly (start 0 [] (bytesAt 0 [0xA0, 9, 8])) = some (some (.outOfBounds 9), true) := by decide

/-! ### PUSH, POP, CALL, RET -/

/-- ST4. -/
theorem test_st4 : (next? (step (start 0 [(.r7, 0xF4)] (bytesAt 0 [0x45, 7])))).map
    (fun t => (t.x .r7, t.mem.read 0xF3, t.mem.read 0xF4, t.pc)) = some (0xF3, 0xF3, 0, 2) := by decide
/-- ST3. -/
theorem test_st3 : (next? (step (start 100 [(.r7, 1), (.r0, 0x55)] (bytesAt 100 [0x45, 0])))).map
    (fun t => (t.x .r7, t.mem.read 0, t.pc)) = some (0, 0x55, 102) := by decide
/-- ST10. -/
theorem test_st10 : regsAndPc (start 0 [(.r7, 0xF3)] ((0xF3, 0x10) :: bytesAt 0 [0x46, 7])) [.r7] = some ([0x11], 2) := by
  decide
/-- ST8. -/
theorem test_st8 : faultOnly (start 0 [(.r7, 255)] ((255, 7) :: bytesAt 0 [0x46, 0])) =
    some (some (.outOfBounds 256), true) := by decide
/-- CR8. -/
theorem test_cr8 : (next? (step (start 100 [(.r7, 0x80)] (bytesAt 100 [0x50, 7])))).map
    (fun t => (t.x .r7, t.mem.read 0x7F, t.pc)) = some (0x7F, 102, 0x7F) := by decide
/-- CR6. -/
theorem test_cr6 : faultOnly (start 254 [] (bytesAt 254 [0x50, 0])) = some (some (.outOfBounds (-1)), true) := by decide
/-- CR2. -/
theorem test_cr2 : regsAndPc (start 0x10 [(.r7, 0xF3)] [(0xF3, 0x08), (0x10, 0x11)]) [.r7] = some ([0xF4], 8) := by decide
/-- CR10. -/
theorem test_cr10 : faultOnly (start 100 [(.r7, 255)] [(255, 0x20), (100, 0x11)]) =
    some (some (.outOfBounds 256), true) := by decide

/-! ### CMP, JMP, JEQ, JNE -/

/-- BR5. -/
theorem test_br5 : regsAndPc (start 0 [(.r0, 0x80), (.r1, 0x7F)] (bytesAt 0 [0xA7, 0, 1])) [.r6] = some ([0x02], 3) := by
  decide
/-- BR8. -/
theorem test_br8 : regsAndPc (start 0 [(.r6, 0xF0), (.r1, 5), (.r2, 5)] (bytesAt 0 [0xA7, 1, 2])) [.r6] =
    some ([0x01], 3) := by decide
/-- BR13. -/
theorem test_br13 : regsAndPc (start 0x30 [(.r0, 0x30)] (bytesAt 0x30 [0x54, 0])) [.r0] = some ([0x30], 0x30) := by decide
/-- BR15. -/
theorem test_br15 : regsAndPc (start 0 [(.r2, 255)] (bytesAt 0 [0x54, 2])) [.r2] = some ([255], 255) := by decide
/-- BR25. -/
theorem test_br25 : regsAndPc (start 0 [(.r6, 3), (.r1, 0x40)] (bytesAt 0 [0x55, 1])) [.r6] = some ([3], 0x40) := by decide
/-- BR28. -/
theorem test_br28 : regsAndPc (start 254 [(.r6, 4)] (bytesAt 254 [0x55, 1])) [.r6] = some ([4], 256) := by decide
/-- BR26. -/
theorem test_br26 : regsAndPc (start 0 [(.r6, 3), (.r1, 0x40)] (bytesAt 0 [0x56, 1])) [.r6] = some ([3], 2) := by decide
/-- BR24. -/
theorem test_br24 : regsAndPc (start 0 [(.r2, 0x20)] (bytesAt 0 [0x56, 2])) [.r6] = some ([0], 0x20) := by decide

/-! ### Host operations and the sink -/

/-- Section 1.1 and R131: `17` and a newline; `0` and `255` have no leading zero. -/
theorem test_sink : sinkText [17, 0, 255] = "17\n0\n255\n".toList := by decide
/-- R38: the host observes the engine outside Running only. -/
theorem test_observe : hostObserve State.reset = some State.reset ∧ hostObserve (hostRun State.reset) = none := by decide
/-- Section 1.2: load `FF`, run. -/
theorem test_load_ff : ∃ s, hostLoad [0xFF] State.reset = .ok s ∧
    faultOnly (hostRun s) = some (some (.illegalInstruction 0xFF 0), true) := ⟨_, rfl, by decide⟩

/-! ### States that meet the hypotheses of the statements -/

/-- IllegalOpcodeBytes: an undefined byte at the top of memory. -/
theorem test_witness_illegal : let s := start 255 [] [(255, 0xFF)];
    s.runState = .running ∧ s.pc.toNat ≤ 255 ∧ s.mem.read s.pc.toNat = 0xFF ∧ (0xFF : Byte) ∉ definedOpcodes := by decide
/-- IllegalOpcodeBytes: both sides of the equivalence occur; LengthFromHighBits: an undefined opcode byte. -/
theorem test_witness_illegal_iff : (∃ rest, decode ((0xA8 : Byte) :: rest) = .error (.illegalOpcode 0xA8)) ∧
    (0xA7 : Byte) ∈ definedOpcodes ∧ (0xA1 : Byte) ∉ definedOpcodes := ⟨⟨[], rfl⟩, by decide, by decide⟩
/-- DecodeAndEncodeAgree, second clause, and LengthFromHighBits, first: two operand bytes used and one left over. -/
theorem test_witness_decode : decode [0xA0, 0x00, 0x01, 0x47] = .ok (.add 0 1, [0x47]) := by rfl
/-- MemReadChecksItsAddress and MemWriteChangesOneCell: both clauses at their ends. -/
theorem test_witness_addresses : ((-1 : Int) < 0 ∨ (-1 : Int) > 255) ∧ ((256 : Int) < 0 ∨ (256 : Int) > 255) ∧
    (0 ≤ (0 : Int) ∧ (0 : Int) ≤ 255) ∧ (0 ≤ (255 : Int) ∧ (255 : Int) ≤ 255) := by decide
/-- StepRunsTheDecodedInstruction: an instruction that ends at the top of memory, and one with bytes after it. -/
theorem test_witness_step_runs :
    (let s := start 253 [] (bytesAt 253 [0x82, 1, 5]);
      s.runState = .running ∧ decode s.window = .ok (.ldi 1 5, [])) ∧
    (let s := start 0 [] (bytesAt 0 [0x01, 7, 8]);
      s.runState = .running ∧ decode s.window = .ok (.hlt, [7, 8])) := ⟨⟨rfl, rfl⟩, rfl, rfl⟩
/-- StoredInstructionRuns, at the highest place a 3-byte instruction has. -/
theorem test_witness_stored : let s := start 253 [] (bytesAt 253 [0x82, 1, 5]);
    s.runState = .running ∧ s.pc.toNat + (encode (.ldi 1 5)).length ≤ 256 ∧
    ∀ k, k < (encode (.ldi 1 5)).length → (encode (.ldi 1 5))[k]? = some (s.mem.read (s.pc.toNat + k)) := by decide
/-- OpcodeFetchPastTheTopFaults, the premise of its second clause too. -/
theorem test_witness_opcode_past_top : let s := start 256 [] [];
    s.runState = .running ∧ s.pc.toNat > 255 ∧ s.Inv := by decide
/-- OperandFetchPastTheTopFaults: one operand at 255, two operands at 254. -/
theorem test_witness_operand_past_top :
    (let s := start 255 [] [(255, 0x56)];
      s.runState = .running ∧ s.mem.read s.pc.toNat = 0x56 ∧ (0x56 : Byte) ∈ definedOpcodes ∧ s.pc.toNat = 255) ∧
    (let s := start 254 [] [(254, 0xA2)];
      s.runState = .running ∧ s.mem.read s.pc.toNat = 0xA2 ∧ (0xA2 : Byte) ∈ definedOpcodes ∧ s.pc.toNat = 254) := by
  decide
/-- RegisterIndexBytes: the last legal and the first illegal byte. -/
theorem test_witness_register_byte : (7 : Byte).toNat ≤ 7 ∧ (8 : Byte).toNat > 7 ∧ (255 : Byte).toNat > 7 := by decide
/-- FirstFaultIsReported: each clause. -/
theorem test_witness_first_fault : ((8 : Byte).toNat > 7 ∧ (9 : Byte).toNat > 7) ∧
    (let s := start 0 [] []; (8 : Byte).toNat > 7 ∧ s.x .sp = 0) ∧
    (let s := start 254 [] []; s.x .sp = 0 ∧ s.pc.toNat + 2 > 255) := by decide
/-- StepOutcomes: a running engine, and one in each other run state. -/
theorem test_witness_run_states : (start 0 [] []).runState = .running ∧ State.reset.runState ≠ .running ∧
    (start 0 [] []).halt.runState ≠ .running ∧ ((start 0 [] []).takeFault (.outOfBounds 8)).runState ≠ .running := by decide
/-- TakingAFaultChangesNothingElse. -/
theorem test_witness_fault_taken : let s := start 0 [] [];
    s.runState ≠ .faulted ∧ exec (.push 0) s = .next (s.takeFault (.outOfBounds (-1))) ∧
    (s.takeFault (.outOfBounds (-1))).runState = .faulted := ⟨by decide, rfl, rfl⟩
/-- EveryRecordedFaultHasItsCause, and the second clauses of TakingAFaultChangesNothingElse and ProgramCounterTable: POP
with the stack pointer at 255, and RET. -/
theorem test_witness_recorded_fault :
    (let s := start 0 [(.r7, 255)] (bytesAt 0 [0x46, 0]);
      s.runState = .running ∧ s.fault = none ∧ step s = .next (s.takeFault (.outOfBounds 256))) ∧
    (let s := start 0 [(.r7, 255)] [(0, 0x11)];
      s.runState = .running ∧ s.fault = none ∧ step s = .next (s.takeFault (.outOfBounds 256))) :=
  ⟨⟨rfl, rfl, rfl⟩, rfl, rfl, rfl⟩
/-- HltHalts: its second clause, its third (the state after), its fourth. -/
theorem test_witness_hlt : let s := start 255 [] [(255, 0x01)];
    s.runState = .running ∧ s.pc.toNat ≤ 255 ∧ s.mem.read s.pc.toNat = 0x01 ∧ step s = .next s.halt ∧
    s.halt.runState = .halted := ⟨rfl, by decide, by decide, rfl, rfl⟩
/-- LdiLoadsTheImmediate, second clause: each of its three cases. -/
theorem test_witness_ldi :
    (let s := start 254 [] [(254, 0x82)];
      s.runState = .running ∧ s.pc.toNat ≤ 255 ∧ s.mem.read s.pc.toNat = 0x82 ∧ s.pc.toNat ≥ 254) ∧
    (let s := start 253 [] (bytesAt 253 [0x82, 8]);
      s.runState = .running ∧ s.pc.toNat ≤ 253 ∧ s.mem.read s.pc.toNat = 0x82 ∧
      (s.mem.read (s.pc.toNat + 1)).toNat > 7) ∧
    (let s := start 253 [] (bytesAt 253 [0x82, 7]);
      s.runState = .running ∧ s.pc.toNat ≤ 253 ∧ s.mem.read s.pc.toNat = 0x82 ∧
      (s.mem.read (s.pc.toNat + 1)).toNat ≤ 7) := by decide
/-- SinkShowsDecimalLines: a numeral of more than one digit. -/
theorem test_witness_decimal : (decimal 10).length > 1 := by decide
/-- ArithmeticLaws: the conditional clauses. -/
theorem test_witness_arithmetic : (start 0 [] []).x .r1 = 0 ∧ (start 0 [(.r1, 1)] []).x .r1 = 1 ∧
    (Reg.r0 ≠ Reg.r1 ∧ (start 0 [(.r1, 255)] []).x .r1 = 255) := by decide
/-- ArithmeticAssociatesAndDistributes: three registers, and the equal ones each clause still admits. -/
theorem test_witness_associates : (Reg.r0 ≠ Reg.r1 ∧ Reg.r0 ≠ Reg.r2 ∧ Reg.r1 ≠ Reg.r2) ∧
    (let ra := Reg.r0; let rb := Reg.r1; let rc := Reg.r1; ra ≠ rb ∧ ra ≠ rc ∧ rb = rc) ∧
    (let ra := Reg.r0; let rb := Reg.r1; let rc := Reg.r0; ra ≠ rb ∧ rb ≠ rc ∧ ra = rc) := by decide
/-- PushStoresBelowTheStackPointer and PushThenPopRestores: the lowest stack pointer with room below. -/
theorem test_witness_push : (start 0 [(.r7, 1)] []).x .sp ≠ 0 := by decide
/-- PopLoadsFromTheStackPointer and PoppedCellsAreLeft: R0 with the highest legal stack pointer, and R7. -/
theorem test_witness_pop : (start 0 [(.r7, 254)] []).x .sp ≠ 255 ∧ Reg.r0 ≠ Reg.sp ∧
    (let s := start 0 [(.r7, 254)] [(254, 254)]; s.mem.read (s.x .sp).toNat ≠ 255) := by decide
/-- PoppedCellsAreLeft: POP and RET answer next states. -/
theorem test_witness_popped :
    (∃ t, exec (.pop 0) (start 0 [(.r7, 254)] []) = .next t) ∧ ∃ t, exec .ret (start 0 [(.r7, 254)] []) = .next t :=
  ⟨⟨_, rfl⟩, _, rfl⟩
/-- StackPointerNeverWraps: each clause. -/
theorem test_witness_sp_ends : (start 0 [] []).x .sp = 0 ∧ ((start 0 [(.r7, 255)] []).x .sp = 255 ∧ Reg.r0 ≠ Reg.sp) ∧
    (let s := start 0 [(.r7, 3)] [(3, 255)]; s.mem.read (s.x .sp).toNat = 255) := by decide
/-- CallPushesTheReturnAddress and CallThenRetReturns: the highest legal CALL. -/
theorem test_witness_call : let s := start 253 [(.r7, 1)] [];
    s.x .sp ≠ 0 ∧ s.pc.toNat + 2 ≤ 255 := by decide
/-- CallThenRetReturns: the state RET starts from, here the CALL's own. -/
theorem test_witness_call_ret : let s := start 253 [(.r7, 1)] [];
    ∃ t, exec (.call 0) s = .next t ∧ t.x .sp = 0 ∧ t.mem.read (t.x .sp).toNat = 255 := ⟨_, rfl, rfl, rfl⟩
/-- CallFaultsOnItsReturnAddress. -/
theorem test_witness_call_top : let s := start 254 [(.r7, 1)] [];
    s.x .sp ≠ 0 ∧ s.pc.toNat + 2 > 255 := by decide
/-- RetPopsTheProgramCounter. -/
theorem test_witness_ret : (start 0 [(.r7, 254)] []).x .sp ≠ 255 := by decide
/-- CmpWritesOnePattern: the three relations. -/
theorem test_witness_cmp : let s := start 0 [(.r1, 255)] [];
    (s.x .r0).toNat = (s.x .r2).toNat ∧ (s.x .r0).toNat < (s.x .r1).toNat ∧ (s.x .r1).toNat > (s.x .r0).toNat := by decide
/-- JmpGoesToTheRegister, second clause: each of its three cases. -/
theorem test_witness_jmp :
    (let s := start 255 [] [(255, 0x54)];
      s.runState = .running ∧ s.pc.toNat = 255 ∧ s.mem.read s.pc.toNat = 0x54) ∧
    (let s := start 254 [] (bytesAt 254 [0x54, 8]);
      s.runState = .running ∧ s.pc.toNat ≤ 254 ∧ s.mem.read s.pc.toNat = 0x54 ∧
      (s.mem.read (s.pc.toNat + 1)).toNat > 7) ∧
    (let s := start 254 [] (bytesAt 254 [0x54, 7]);
      s.runState = .running ∧ s.pc.toNat ≤ 254 ∧ s.mem.read s.pc.toNat = 0x54 ∧
      (s.mem.read (s.pc.toNat + 1)).toNat ≤ 7) := by decide
/-- JeqJumpsOnBitZero and JneJumpsOnBitZeroClear: both values of the bit. -/
theorem test_witness_branch : ((start 0 [(.r6, 3)] []).x .fl).getLsbD 0 = true ∧
    ((start 0 [(.r6, 2)] []).x .fl).getLsbD 0 = false := by decide
/-- CompareThenBranch, second clause; its first has no hypothesis, and both of its cases occur. -/
theorem test_witness_compare_branch : (start 0 [] []).x .fl = 0 ∧
    (let s := start 0 [(.r1, 1)] []; s.x .r0 = s.x .r2 ∧ s.x .r0 ≠ s.x .r1) := by decide
/-- RegisterReadWriteTable: a changed register, and a register that is not read. -/
theorem test_witness_register_table :
    (let s := start 0 [] []; ∃ t, exec (.ldi 3 9) s = .next t ∧ t.x .r3 ≠ s.x .r3) ∧
    ¬ ReadsReg (.ldi 3 9) (start 0 [] []) .r3 ∧ ¬ ReadsReg (.jeq 1) (start 0 [] []) .r1 :=
  ⟨⟨_, rfl, by decide⟩, by simp [ReadsReg], by simp [ReadsReg]; decide⟩
/-- ProgramCounterTable: an instruction at the highest place, one that faults and one that does not. -/
theorem test_witness_pc_table :
    (let s := start 254 [] [];
      s.runState = .running ∧ s.pc.toNat + (encode (.push 0)).length ≤ 256 ∧
      ∃ t, exec (.push 0) s = .next t ∧ t.runState = .faulted) ∧
    (let s := start 253 [] [];
      s.runState = .running ∧ s.pc.toNat + (encode (.ldi 0 9)).length ≤ 256 ∧
      ∃ t, exec (.ldi 0 9) s = .next t ∧ t.runState ≠ .faulted) :=
  ⟨⟨rfl, by decide, _, rfl, rfl⟩, rfl, by decide, _, rfl, by decide⟩
/-- MemoryAccessTable: a changed cell, and another memory that agrees at the stack pointer. -/
theorem test_witness_memory_table :
    (let s := start 0 [(.r7, 1), (.r0, 5)] []; ∃ t, exec (.push 0) s = .next t ∧ t.mem.read 0 ≠ s.mem.read 0) ∧
    (let s := start 0 [(.r7, 1)] [(1, 5)]; Memory.read [(0, 9), (1, 5)] (s.x .sp).toNat = s.mem.read (s.x .sp).toNat) :=
  ⟨⟨_, rfl, by decide⟩, by decide⟩
/-- OutputIsAppendOnly: a step that emits. -/
theorem test_witness_output : let s := start 0 [(.r0, 7)] (bytesAt 0 [0x47, 0]);
    ∃ t, step { s with out := [] } = .next t ∧ t.out = [7] := ⟨_, rfl, rfl⟩
/-- PushedByteIsFetchedNext: HLT pushed at the highest place, and an undefined byte. -/
theorem test_witness_pushed_byte :
    (let s := start 252 [(.r0, 0x01), (.r7, 255)] (bytesAt 252 [0x45, 0]);
      s.runState = .running ∧ s.pc.toNat ≤ 253 ∧ Reg.r0 ≠ Reg.sp ∧ s.mem.read s.pc.toNat = 0x45 ∧
      s.mem.read (s.pc.toNat + 1) = Reg.r0.byte ∧ (s.x .sp).toNat = s.pc.toNat + 3 ∧ s.x .r0 = 0x01) ∧
    (let s := start 0 [(.r0, 0xFF), (.r7, 3)] (bytesAt 0 [0x45, 0]);
      s.runState = .running ∧ s.pc.toNat ≤ 253 ∧ Reg.r0 ≠ Reg.sp ∧ s.mem.read s.pc.toNat = 0x45 ∧
      s.mem.read (s.pc.toNat + 1) = Reg.r0.byte ∧ (s.x .sp).toNat = s.pc.toNat + 3 ∧ s.x .r0 ∉ definedOpcodes) := by
  decide
/-- JumpToItselfNeverEnds. -/
theorem test_witness_jump_to_itself : let s := start 254 [(.r0, 254)] (bytesAt 254 [0x54, 0]);
    s.runState = .running ∧ s.pc.toNat ≤ 254 ∧ s.mem.read s.pc.toNat = 0x54 ∧
    s.mem.read (s.pc.toNat + 1) = Reg.r0.byte ∧ (s.x .r0).toNat = s.pc.toNat := by decide
/-- LoadPlacesTheBytes: the longest load, the shortest too long, and a load outside Ready. -/
theorem test_witness_load : State.reset.runState = .ready ∧ (List.replicate 256 (0 : Byte)).length ≤ 256 ∧
    (List.replicate 257 (0 : Byte)).length > 256 ∧ (start 0 [] []).runState ≠ .ready :=
  ⟨rfl, by rw [List.length_replicate], by rw [List.length_replicate]; decide, by decide⟩
/-- RunAndReset: each run state it names. -/
theorem test_witness_run : State.reset.runState = .ready ∧ State.reset.halt.runState = .halted ∧
    (State.reset.takeFault (.outOfBounds 8)).runState = .faulted := by decide
/-- LoadedProgramStartsAtZero: the shortest program, and the longest. -/
theorem test_witness_program : (encode .hlt ++ []).length ≤ 256 ∧
    (encode .hlt ++ List.replicate 255 (0 : Byte)).length ≤ 256 :=
  ⟨by decide, by rw [List.length_append, List.length_replicate]; decide⟩
/-- EveryStepKeepsTheInvariant: a step from a state that meets the invariant. -/
theorem test_witness_inv_step : let s := start 0 [(.r7, 1), (.r0, 5)] (bytesAt 0 [0x45, 0]);
    s.Inv ∧ ∃ t, step s = .next t := ⟨by decide, _, rfl⟩
/-- HostOperationsKeepTheInvariant: an accepted load. -/
theorem test_witness_inv_load : State.reset.Inv ∧ ∃ t, hostLoad [0x01] State.reset = .ok t := ⟨by decide, _, rfl⟩
/-- HowARunEnds and ASuccessfulRunNeverFaults: a run that halts. -/
theorem test_witness_run_halts : let s := start 0 [] [(0, 0x01)];
    s.Inv ∧ s.runState = .running ∧ RunEnds s s.halt ∧ Succeeds s :=
  ⟨by decide, rfl, ⟨1, rfl, by decide⟩, _, ⟨1, rfl, by decide⟩, rfl⟩
/-- HowARunEnds: a run that faults. -/
theorem test_witness_run_faults : let s := start 0 [] [];
    s.Inv ∧ s.runState = .running ∧ RunEnds s (s.takeFault (.illegalInstruction 0 0)) :=
  ⟨by decide, rfl, 1, rfl, by decide⟩

end Sys2Proof.Tests
end

section
/-! The state after reset (10_state.md section 8). -/

namespace Sys2Proof.Machine

/-- Reset lists no cell, so every address reads as an unwritten one (R40). -/
@[simp] theorem Memory.read_reset (a : Nat) : State.reset.mem.read a = 0 := rfl

/-- Settles O44: the registers and the cells by their reset lemmas, the other four items by the definition of reset. -/
theorem resetValues : Obligations.ResetValues :=
  ⟨State.x_reset, rfl, Memory.read_reset, rfl, rfl, rfl⟩

end Sys2Proof.Machine
end

section
/-! Memory (20_memory.md): the checked accesses at any integer, and what POP and RET leave in the cells. -/

namespace Sys2Proof.Machine

/-! ### Checked accesses (R53, R54) -/

theorem memRead_outside (s : State) {a : Int} (h : a < 0 ∨ a > 255) : memRead s a = .error (.outOfBounds a) :=
  if_pos h

theorem memRead_inside (s : State) {a : Int} (h : 0 ≤ a ∧ a ≤ 255) : memRead s a = .ok (s.mem.read a.toNat) :=
  if_neg (by omega)

theorem memWrite_outside (s : State) {a : Int} (v : Byte) (h : a < 0 ∨ a > 255) :
    memWrite s a v = .error (.outOfBounds a) := if_pos h

theorem memWrite_inside (s : State) {a : Int} (v : Byte) (h : 0 ≤ a ∧ a ≤ 255) :
    memWrite s a v = .ok (s.setMem (s.mem.write a.toNat v)) := if_neg (by omega)

/-- Settles O7: an address in range replaces memory alone, where a write is read back at its own cell and at no other. -/
theorem memWriteChangesOneCell : Obligations.MemWriteChangesOneCell := by
  intro s a v
  refine ⟨memWrite_outside s v, fun h => ⟨_, memWrite_inside s v h, ?_, fun b hb => ?_, rfl, rfl, rfl, rfl, rfl⟩⟩
  · exact Memory.read_write_same s.mem a.toNat v
  · exact Memory.read_write_other s.mem v hb

/-- Settles O6, by the two sides of the address check. -/
theorem memReadChecksItsAddress : Obligations.MemReadChecksItsAddress :=
  fun s _ => ⟨memRead_outside s, memRead_inside s⟩

/-! ### POP and RET (R66) -/

/-- However POP ends, it writes no cell. -/
theorem mem_of_exec_pop {s t : State} {b : Byte} (h : exec (.pop b) s = .next t) : t.mem = s.mem := by
  cases ends_of_exec h with
  | badIndex => rfl
  | popAtTop => rfl
  | pop => rfl

/-- However RET ends, it writes no cell. -/
theorem mem_of_exec_ret {s t : State} (h : exec .ret s = .next t) : t.mem = s.mem := by
  cases ends_of_exec h with
  | badIndex => rfl
  | retAtTop => rfl
  | ret => rfl

/-- A POP that does not fault, into a register other than R7, loads the cell at the old stack pointer (R151). -/
theorem x_of_exec_pop {s t : State} {r : Reg} (hr : r ≠ .sp) (hsp : s.x .sp ≠ 255)
    (h : exec (.pop r.byte) s = .next t) : t.x r = s.mem.read (s.x .sp).toNat := by
  have hpop : exec (.pop r.byte) s = _ := execPop_reg r (s := s) (by rwa [if_neg hr])
  rw [hpop] at h
  cases h
  simp [hr]

/-- Settles O28: POP and RET keep memory, so the cell POP loaded its register from still holds that value. -/
theorem poppedCellsAreLeft : Obligations.PoppedCellsAreLeft := by
  refine ⟨fun s t b h a => ?_, fun s t h a => ?_, fun s t r hr hsp h => ?_⟩
  · rw [mem_of_exec_pop h]
  · rw [mem_of_exec_ret h]
  · rw [mem_of_exec_pop h, x_of_exec_pop hr hsp h]

end Sys2Proof.Machine
end

section
/-! Encoding (30_encoding.md): the operand count in the opcode byte, the length of an instruction, and encoding by hand. -/

namespace Sys2Proof

open Machine

/-! ### The operand count of an opcode (R81) -/

/-- The count the model divides out of the opcode byte is its bit field `op[7:6]`. -/
theorem operandCount_eq_highBits (op : Byte) : operandCount op = (op.extractLsb' 6 2).toNat := by
  have hop := op.isLt
  rw [operandCount, BitVec.extractLsb'_toNat, Nat.shiftRight_eq_div_pow]
  omega

theorem operandCount_of_zero {op : Byte} {i : Instr} (h : opcodeForm op = some (.zero i)) : operandCount op = 0 := by
  rcases opcodeForm_eq_zero h with ⟨rfl, -⟩ | ⟨rfl, -⟩ <;> rfl

theorem operandCount_of_one {op : Byte} {mk : Byte → Instr} (h : opcodeForm op = some (.one mk)) :
    operandCount op = 1 := by
  rcases opcodeForm_eq_one h with h | h | h | h | h | h | h <;> rw [h.1] <;> rfl

theorem operandCount_of_two {op : Byte} {mk : Byte → Byte → Instr} (h : opcodeForm op = some (.two mk)) :
    operandCount op = 2 := by
  rcases opcodeForm_eq_two h with h | h | h | h <;> rw [h.1] <;> rfl

/-- No defined opcode asks for three operand bytes. -/
theorem operandCount_le_two : ∀ op ∈ definedOpcodes, operandCount op ≤ 2 := by decide

/-! ### What the decoder takes, what the encoder emits -/

theorem decode_undefined {op : Byte} (h : op ∉ definedOpcodes) (tail : List Byte) :
    decode (op :: tail) = .error (.illegalOpcode op) := by
  simp only [decode, opcodeForm_eq_none.2 h]

/-- Decoding takes, behind the opcode byte, as many bytes as that byte counts. -/
theorem length_of_decode {op : Byte} {tail rest : List Byte} {i : Instr} (h : decode (op :: tail) = .ok (i, rest)) :
    tail.length = rest.length + operandCount op := by
  simp only [decode] at h
  split at h <;> cases h
  next ho => rw [operandCount_of_zero ho, Nat.add_zero]
  next ho => rw [operandCount_of_one ho, List.length_cons]
  next ho => rw [operandCount_of_two ho, List.length_cons, List.length_cons]

/-- The facts about the encoding of each instruction, as one about every instruction. -/
theorem encodingLength_statement : ∀ i : Instr, Laws.EncodingLength.Statement i
  | .hlt => Laws.EncodingLength.hlt
  | .ldi reg imm8 => Laws.EncodingLength.ldi reg imm8
  | .prn reg => Laws.EncodingLength.prn reg
  | .mul regA regB => Laws.EncodingLength.mul regA regB
  | .add regA regB => Laws.EncodingLength.add regA regB
  | .push reg => Laws.EncodingLength.push reg
  | .pop reg => Laws.EncodingLength.pop reg
  | .call reg => Laws.EncodingLength.call reg
  | .ret => Laws.EncodingLength.ret
  | .cmp regA regB => Laws.EncodingLength.cmp regA regB
  | .jmp reg => Laws.EncodingLength.jmp reg
  | .jeq reg => Laws.EncodingLength.jeq reg
  | .jne reg => Laws.EncodingLength.jne reg

/-- An encoding begins with a defined opcode, and the operand bytes behind it are as many as that opcode counts. -/
theorem encode_eq_cons (i : Instr) :
    ∃ op operands, encode i = op :: operands ∧ operands.length = operandCount op ∧ op ∈ definedOpcodes := by
  obtain ⟨op, operands, henc, hlen, hform⟩ := encodingLength_statement i
  refine ⟨op, operands, henc, hlen, ?_⟩
  by_contra hop
  simp [opcodeForm_eq_none.2 hop] at hform

theorem encode_length_le_three (i : Instr) : (encode i).length ≤ 3 := by
  obtain ⟨op, operands, henc, hlen, hop⟩ := encode_eq_cons i
  have hcount := operandCount_le_two op hop
  rw [henc, List.length_cons, hlen]
  omega

/-- Settles O5: `operandCount` is the bit field, decoding takes that many operand bytes, and no defined opcode counts
more than two. -/
theorem lengthFromHighBits : Obligations.LengthFromHighBits := by
  refine ⟨fun op tail i rest h => ?_, encode_length_le_three, fun op hop h3 => ?_, fun _ tail hop =>
    decode_undefined hop tail⟩
  · rw [← operandCount_eq_highBits, List.length_cons, length_of_decode h]
    omega
  · have hcount := operandCount_le_two op hop
    rw [operandCount_eq_highBits, h3] at hcount
    exact absurd hcount (by decide)

/-! ### Encoding by hand (R94) -/

/-- Settles O2: each clause is the encoder's own equation for that instruction, and `r.byte` is by definition the byte
of `r`'s index. -/
theorem encodingByHand : Obligations.EncodingByHand :=
  ⟨fun _ _ _ => ⟨rfl, rfl, rfl, rfl, rfl, rfl, rfl, rfl, rfl, rfl, rfl, rfl, rfl⟩, rfl, rfl, rfl, rfl⟩

end Sys2Proof
end

section
/-! HLT and the way to Halted (40_dispatch_and_halt.md). -/

namespace Sys2Proof.Machine

/-- An instruction other than HLT leaves the run state as it was, or faults (R116, R198). -/
theorem runState_of_ends {s t : State} {i : Instr} (hi : i ≠ .hlt) (h : Ends s i t) :
    t.runState = s.runState ∨ t.runState = .faulted := by
  cases h with
  | hlt => exact absurd rfl hi
  | badIndex | pushAtZero | callAtZero | callAtTop | popAtTop | retAtTop => exact .inr rfl
  | ldi | prn | mul | add | push | pop | call | ret | cmp | jmp => exact .inl rfl
  | jeq | jne => exact .inl (by split <;> rfl)

/-- A step that ends in Halted fetched HLT (R116). -/
theorem fetch_eq_hlt_of_step_halted {s t : State} (h : step s = .next t) (ht : t.runState = .halted) :
    fetch s = .ok .hlt := by
  obtain ⟨hrun, ⟨f, -, rfl⟩ | ⟨i, hf, -, hends⟩⟩ := step_next h
  · rw [State.takeFault_runState] at ht
    cases ht
  · by_cases hi : i = .hlt
    · rw [hf, hi]
    · rcases runState_of_ends hi hends with hs | hs <;> simp [ht, hrun] at hs

/-- The byte 0x01 at any address of memory, 255 too, is fetched as HLT (R87, R111). -/
theorem fetch_eq_hlt {s : State} (hpc : s.pc.toNat ≤ 255) (hop : s.mem.read s.pc.toNat = 0x01) :
    fetch s = .ok .hlt :=
  fetch_zero hpc (by rw [hop]; rfl)

/-- Settles O17: HLT's own equation, alone and under a step that fetches it; only a fetched HLT leads to Halted; and
Halted is not Running. -/
theorem hltHalts : Obligations.HltHalts := by
  refine ⟨execHlt_eq, fun s hrun hpc hop => ?_, fun s t h ht => ?_, fun s t hs => ?_⟩
  · rw [step_of_fetch hrun (fetch_eq_hlt hpc hop)]
    exact execHlt_eq s
  · exact fetch_hlt (fetch_eq_hlt_of_step_halted h ht)
  · exact step_not_running (by simp [hs])

end Sys2Proof.Machine
end

section
/-! Decoding and encoding as inverses of each other (30_encoding.md sections 1 to 3). -/

namespace Sys2Proof

open Machine

/-- The decoder reads an encoding back and leaves what follows it. -/
theorem decode_encode (i : Instr) (rest : List Byte) : decode (encode i ++ rest) = .ok (i, rest) := by
  cases i <;> rfl

/-- What the decoder accepts begins with the encoding of what it answers: the three forms an opcode can have, each with
the opcodes of that form (R87). -/
theorem eq_encode_append_of_decode {bytes rest : List Byte} {i : Instr} (h : decode bytes = .ok (i, rest)) :
    bytes = encode i ++ rest := by
  cases bytes with
  | nil => cases h
  | cons op tail =>
    simp only [decode] at h
    split at h <;> cases h
    next ho => rcases opcodeForm_eq_zero ho with ⟨rfl, rfl⟩ | ⟨rfl, rfl⟩ <;> rfl
    next ho => rcases opcodeForm_eq_one ho with h | h | h | h | h | h | h <;> obtain ⟨rfl, rfl⟩ := h <;> rfl
    next ho => rcases opcodeForm_eq_two ho with h | h | h | h <;> obtain ⟨rfl, rfl⟩ := h <;> rfl

/-- Settles O3, by the two directions. -/
theorem decodeAndEncodeAgree : Obligations.DecodeAndEncodeAgree :=
  ⟨decode_encode, fun _ _ _ => eq_encode_append_of_decode⟩

/-- Settles O1: each sequence is the encoding of its instruction followed by what is left over. -/
theorem wordsOfEveryFamilyDecode : Obligations.WordsOfEveryFamilyDecode :=
  ⟨decode_encode .hlt [], decode_encode (.ldi 3 255) [], decode_encode (.prn 6) [], decode_encode (.add 0 1) [0x47],
    decode_encode (.mul 2 1) [], decode_encode (.push 7) [], decode_encode (.pop 9) [], decode_encode (.call 1) [],
    decode_encode .ret [0x11], decode_encode (.cmp 5 4) [], decode_encode (.jmp 2) [], decode_encode (.jeq 2) [],
    decode_encode (.jne 2) []⟩

/-- The opcode bytes of R86 by value, in rising order (R87). -/
theorem mem_definedOpcodes_iff (op : Byte) : op ∈ definedOpcodes ↔
    op.toNat = 0x01 ∨ op.toNat = 0x11 ∨ op.toNat = 0x45 ∨ op.toNat = 0x46 ∨ op.toNat = 0x47 ∨ op.toNat = 0x50 ∨
      op.toNat = 0x54 ∨ op.toNat = 0x55 ∨ op.toNat = 0x56 ∨ op.toNat = 0x82 ∨ op.toNat = 0xA0 ∨ op.toNat = 0xA2 ∨
      op.toNat = 0xA7 := by
  simp only [definedOpcodes, List.mem_cons, List.not_mem_nil, or_false, ← BitVec.toNat_inj,
    BitVec.ofNat_eq_ofNat, BitVec.toNat_ofNat, Nat.reducePow, Nat.reduceMod]
  omega

/-- The decoder refuses a sequence for its opcode byte exactly where that byte is outside the table (R88). -/
theorem decode_illegalOpcode_iff (op : Byte) :
    (∃ rest, decode (op :: rest) = .error (.illegalOpcode op)) ↔ op ∉ definedOpcodes := by
  refine ⟨fun ⟨rest, h⟩ => ?_, fun h => ⟨[], decode_undefined h []⟩⟩
  simp only [decode] at h
  split at h <;> cases h
  next ho => exact opcodeForm_eq_none.1 ho

end Sys2Proof

namespace Sys2Proof.Machine

/-- Fetching a byte outside the table takes `IllegalInstruction(op, pc)` (R88, R112). -/
theorem step_illegal {s : State} (hrun : s.runState = .running) (hpc : s.pc.toNat ≤ 255)
    (hop : s.mem.read s.pc.toNat ∉ definedOpcodes) :
    step s = .next (s.takeFault (.illegalInstruction (s.mem.read s.pc.toNat) s.pc.toNat)) :=
  step_of_fetch_error hrun (fetch_illegal hpc (opcodeForm_eq_none.2 hop))

/-- Settles O4: the refused bytes are those outside the table, whose values are listed; the rest is the fetch's own
fault, and a count of the table. -/
theorem illegalOpcodeBytes : Obligations.IllegalOpcodeBytes := by
  intro op
  refine ⟨?_, (decode_illegalOpcode_iff op).symm, fun s hrun hpc hread hop => ?_, by decide⟩
  · rw [decode_illegalOpcode_iff, mem_definedOpcodes_iff]
    have := op.isLt
    omega
  · subst hread
    exact step_illegal hrun hpc hop

end Sys2Proof.Machine
end

section
/-! Fetch and step (40_dispatch_and_halt.md): the bytes at `pc`, the instruction they make, the step that runs it. -/

namespace Sys2Proof.Machine

/-! ### The window of bytes at `pc` -/

/-- The bytes at `pc`, by how many of the three lie within memory. -/
theorem State.window_eq (s : State) :
    s.window = (List.range (min 3 (256 - s.pc.toNat))).map fun k => s.mem.read (s.pc.toNat + k) := by
  have hcut : ∀ p : Nat, ([0, 1, 2].map (p + ·)).filter (· ≤ 255) = (List.range (min 3 (256 - p))).map (p + ·) := by
    intro p
    obtain h | rfl | rfl | h : p ≤ 253 ∨ p = 254 ∨ p = 255 ∨ 255 < p := by omega
    · rw [show min 3 (256 - p) = 3 by omega]
      simp [List.range_succ, show p ≤ 255 by omega, show p + 1 ≤ 255 by omega, show p + 2 ≤ 255 by omega]
    · rfl
    · rfl
    · rw [show min 3 (256 - p) = 0 by omega, List.range_zero, List.map_nil, List.filter_eq_nil_iff]
      simp only [List.mem_map, decide_eq_true_eq]
      omega
  simp only [State.window, hcut, List.map_map]
  rfl

theorem State.window_length (s : State) : s.window.length = min 3 (256 - s.pc.toNat) := by
  simp [State.window_eq]

theorem State.window_getElem? {s : State} {k : Nat} (hk : k < s.window.length) :
    s.window[k]? = some (s.mem.read (s.pc.toNat + k)) := by
  rw [State.window_length] at hk
  simp [State.window_eq, List.getElem?_range hk]

/-- The bytes of an instruction lie in memory from `pc` on. -/
def State.Holds (s : State) (i : Instr) : Prop :=
  s.pc.toNat + (encode i).length ≤ 256 ∧
    ∀ k, k < (encode i).length → (encode i)[k]? = some (s.mem.read (s.pc.toNat + k))

/-- An instruction lies at `pc` exactly where the decoder reads it from there. -/
theorem State.holds_iff_decode {s : State} {i : Instr} : s.Holds i ↔ ∃ rest, decode s.window = .ok (i, rest) := by
  constructor
  · rintro ⟨hlen, hbytes⟩
    have hle := encode_length_le_three i
    have hpre : encode i <+: s.window := by
      rw [List.prefix_iff_getElem?]
      intro k hk
      rw [State.window_getElem? (by rw [State.window_length]; omega), ← hbytes k hk, List.getElem?_eq_getElem hk]
    obtain ⟨rest, hrest⟩ := hpre
    exact ⟨rest, hrest ▸ decode_encode i rest⟩
  · rintro ⟨rest, h⟩
    have hw := eq_encode_append_of_decode h
    have hlen := s.window_length
    obtain ⟨op, operands, henc, -⟩ := encode_eq_cons i
    have hsum : s.window.length = (encode i).length + rest.length := by rw [hw, List.length_append]
    have hpos : 0 < (encode i).length := by simp [henc]
    refine ⟨by omega, fun k hk => ?_⟩
    rw [← State.window_getElem? (by omega), hw, List.getElem?_append_left hk]

/-! ### The fetched instruction -/

/-- The byte at `pc` is the opcode of the instruction that lies there. -/
theorem State.Holds.opcode? {s : State} {i : Instr} (h : s.Holds i) :
    (encode i)[0]? = some (s.mem.read s.pc.toNat) := by
  obtain ⟨op, operands, henc, -⟩ := encode_eq_cons i
  exact h.2 0 (by simp [henc])

/-- Where an instruction lies at `pc`, the byte there is defined and the operand bytes it counts lie in memory. -/
theorem State.Holds.opcode {s : State} {i : Instr} (h : s.Holds i) :
    s.pc.toNat + 1 + operandCount (s.mem.read s.pc.toNat) ≤ 256 ∧ s.mem.read s.pc.toNat ∈ definedOpcodes := by
  obtain ⟨op, operands, henc, hcount, hop⟩ := encode_eq_cons i
  have hread := h.opcode?
  have hlen := h.1
  simp only [henc, List.getElem?_cons_zero, Option.some.injEq] at hread
  simp only [henc, List.length_cons] at hlen
  rw [← hread]
  exact ⟨by omega, hop⟩

/-- The fetch answers an instruction exactly where that instruction lies at `pc` (R111 to R113). -/
theorem fetch_eq_ok_iff {s : State} {i : Instr} : fetch s = .ok i ↔ s.Holds i := by
  rw [State.holds_iff_decode]
  refine ⟨decode_window, fun ⟨rest, h⟩ => ?_⟩
  obtain ⟨hfits, hop⟩ := (State.holds_iff_decode.2 ⟨rest, h⟩).opcode
  have hok : ∀ j, fetch s = .ok j → fetch s = .ok i := by
    intro j hj
    obtain ⟨rest', h'⟩ := decode_window hj
    rw [h] at h'
    cases h'
    exact hj
  rcases fetch_cases s with ⟨hpc, -⟩ | ⟨-, hbad, -⟩ | ⟨j, -, -, hj⟩ | ⟨mk, ho, ⟨hpc, -⟩ | ⟨-, hj⟩⟩ |
    ⟨mk, ho, ⟨hpc, -⟩ | ⟨-, hj⟩⟩
  · omega
  · exact absurd hop hbad
  · exact hok _ hj
  · rw [operandCount_of_one ho] at hfits
    omega
  · exact hok _ hj
  · rw [operandCount_of_two ho] at hfits
    omega
  · exact hok _ hj

theorem step_of_holds {s : State} {i : Instr} (hrun : s.runState = .running) (h : s.Holds i) : step s = exec i s :=
  step_of_fetch hrun (fetch_eq_ok_iff.2 h)

/-- Settles O9: an instruction that lies at `pc` is the one fetched. -/
theorem storedInstructionRuns : Obligations.StoredInstructionRuns :=
  fun _ _ hrun hlen hbytes => step_of_holds hrun ⟨hlen, hbytes⟩

/-- Settles O8: an instruction the decoder reads at `pc` lies there. -/
theorem stepRunsTheDecodedInstruction : Obligations.StepRunsTheDecodedInstruction :=
  fun _ _ rest hrun h => step_of_holds hrun (State.holds_iff_decode.2 ⟨rest, h⟩)

/-! ### Bytes past the top of memory (R111, R113) -/

/-- Settles O10: the fetch faults with `pc`, which the invariant bounds by 256. -/
theorem opcodeFetchPastTheTopFaults : Obligations.OpcodeFetchPastTheTopFaults := by
  refine fun s hrun hpc => ⟨step_of_fetch_error hrun (fetch_above hpc), ?_⟩
  rintro ⟨-, hle, -, -⟩
  omega

/-- An opcode whose operand bytes do not all lie in memory faults at the first that does not (R113, D7). -/
theorem fetch_operand_above {s : State} (hpc : s.pc.toNat ≤ 255) (hop : s.mem.read s.pc.toNat ∈ definedOpcodes)
    (habove : 256 < s.pc.toNat + 1 + operandCount (s.mem.read s.pc.toNat)) :
    fetch s = .error (.outOfBounds 256) := by
  match ho : opcodeForm (s.mem.read s.pc.toNat) with
  | none => exact absurd hop (opcodeForm_eq_none.1 ho)
  | some (.zero i) =>
    rw [operandCount_of_zero ho] at habove
    omega
  | some (.one mk) =>
    rw [operandCount_of_one ho] at habove
    exact fetch_one_top (by omega) ho
  | some (.two mk) =>
    rw [operandCount_of_two ho] at habove
    exact fetch_two_top (by omega) ho

/-- Every defined opcode but HLT and RET counts an operand byte (R87). -/
theorem operandCount_pos : ∀ op ∈ definedOpcodes, op ≠ 0x01 → op ≠ 0x11 → 0 < operandCount op := by decide

/-- Settles O11: in both cases the operand bytes counted by the opcode reach beyond 255. -/
theorem operandFetchPastTheTopFaults : Obligations.OperandFetchPastTheTopFaults := by
  intro s op hrun hread hop hcase
  subst hread
  refine step_of_fetch_error hrun ?_
  rcases hcase with ⟨hpc, hne1, hne2⟩ | ⟨hpc, htwo⟩
  · have hpos := operandCount_pos _ hop hne1 hne2
    exact fetch_operand_above (by omega) hop (by omega)
  · have hcount : operandCount (s.mem.read s.pc.toNat) = 2 := by
      rcases htwo with h | h | h | h <;> rw [h] <;> rfl
    exact fetch_operand_above (by omega) hop (by omega)

/-! ### Register-index bytes and the order of faults (R114, R197) -/

/-- Settles O12: a byte names a register or faults, and each instruction reports the byte that does. -/
theorem registerIndexBytes : Obligations.RegisterIndexBytes := by
  refine ⟨fun b hb => ?_, fun b hb => regIndex_above hb, fun s b v r hb => ?_⟩
  · obtain ⟨r, rfl⟩ := exists_reg_of_le hb
    exact ⟨r, regIndex_byte r, by cases r <;> rfl, rfl⟩
  · obtain ⟨hmul1, hadd1, hcmp1⟩ := execTwoRegs_fault (regIndexes_first hb r.byte) s
    obtain ⟨hmul2, hadd2, hcmp2⟩ := execTwoRegs_fault (regIndexes_second r hb) s
    exact ⟨execLdi_fault hb v s, execPrn_fault hb s, execPush_fault hb s, execPop_fault hb s, execCall_fault hb s,
      execJmp_fault hb s, execJeq_fault hb s, execJne_fault hb s, hmul1, hadd1, hcmp1, hmul2, hadd2, hcmp2⟩

/-- Settles O13: the first bad index is reported, whatever the second byte and the stack pointer are, and CALL looks at
the stack pointer before its return address. -/
theorem firstFaultIsReported : Obligations.FirstFaultIsReported :=
  ⟨fun s _ c hb _ => execTwoRegs_fault (regIndexes_first hb c) s,
    fun s _ hb _ => ⟨execPush_fault hb s, execCall_fault hb s⟩, fun _ r hsp _ => execCall_zero r hsp⟩

end Sys2Proof.Machine
end

section
/-! How a step ends (40_dispatch_and_halt.md rule R110, 60_exceptions.md sections 1, 3 and 4). -/

namespace Sys2Proof.Machine

/-! ### Completed, halted or faulted (R198, R199) -/

/-- An instruction takes an `OutOfBounds` fault in the state it started in, or it is HLT, or it completes with the run
state and the fault record as they were. Where its bytes lie in memory, the integer of the fault is one of R194's. -/
theorem Ends.outcome {i : Instr} {s t : State} (h : Ends s i t) :
    (∃ a : Int, t = s.takeFault (.outOfBounds a) ∧
      (s.pc.toNat + (encode i).length ≤ 256 → a = -1 ∨ (8 ≤ a ∧ a ≤ 256))) ∨
    (i = .hlt ∧ t = s.halt) ∨ (i ≠ .hlt ∧ t.runState = s.runState ∧ t.fault = s.fault) := by
  cases h with
  | hlt => exact .inr (.inl ⟨rfl, rfl⟩)
  | badIndex i b _ hb =>
    have := b.isLt
    exact .inl ⟨_, rfl, fun _ => by omega⟩
  | pushAtZero | callAtZero => exact .inl ⟨_, rfl, fun _ => .inl rfl⟩
  | callAtTop r _ hpc => exact .inl ⟨_, rfl, fun hlen => by simp only [encode, List.length_cons] at hlen; omega⟩
  | popAtTop | retAtTop => exact .inl ⟨_, rfl, fun _ => .inr (by decide)⟩
  | ldi | prn | mul | add | push | pop | call | ret | cmp | jmp =>
    exact .inr (.inr ⟨Instr.noConfusion, rfl, rfl⟩)
  | jeq | jne => exact .inr (.inr ⟨Instr.noConfusion, by split <;> rfl, by split <;> rfl⟩)

/-- An instruction started outside Faulted that ends there has taken a fault, and nothing else. -/
theorem Ends.eq_takeFault {i : Instr} {s t : State} (h : Ends s i t) (hs : s.runState ≠ .faulted)
    (ht : t.runState = .faulted) : ∃ f, t = s.takeFault f := by
  rcases h.outcome with ⟨a, rfl, -⟩ | ⟨-, rfl⟩ | ⟨-, hrun, -⟩
  · exact ⟨_, rfl⟩
  · cases ht
  · exact absurd (hrun.symm.trans ht) hs

/-- A step that ends in Faulted has taken a fault, and nothing else. -/
theorem eq_takeFault_of_step {s t : State} (h : step s = .next t) (ht : t.runState = .faulted) :
    ∃ f, t = s.takeFault f := by
  obtain ⟨hrun, ⟨f, -, rfl⟩ | ⟨i, -, -, hends⟩⟩ := step_next h
  · exact ⟨f, rfl⟩
  · exact hends.eq_takeFault (by simp [hrun]) ht

/-- Settles O15, for an instruction and for a step. -/
theorem takingAFaultChangesNothingElse : Obligations.TakingAFaultChangesNothingElse :=
  ⟨fun _ _ _ hs h ht => (ends_of_exec h).eq_takeFault hs ht, fun _ _ => eq_takeFault_of_step⟩

/-- Settles O14: the fetch faults, or the fetched instruction ends in one of its three ways. -/
theorem stepOutcomes : Obligations.StepOutcomes := by
  refine fun s => ⟨fun hrun => ?_, fun hrun t => step_not_running hrun⟩
  cases hf : fetch s with
  | error f => exact ⟨_, step_of_fetch_error hrun hf, .inr (.inr ⟨f, rfl⟩)⟩
  | ok i =>
    obtain ⟨t, hexec, hends⟩ := exec_ends i s
    obtain ⟨rest, hdecode⟩ := decode_window hf
    refine ⟨t, (step_of_fetch hrun hf).trans hexec, ?_⟩
    rcases hends.outcome with ⟨a, rfl, -⟩ | ⟨rfl, rfl⟩ | ⟨-, hstate, hfault⟩
    · exact .inr (.inr ⟨_, rfl⟩)
    · exact .inr (.inl ⟨rfl, rest, hdecode⟩)
    · exact .inl ⟨hstate.trans hrun, hfault, i, rest, hdecode, hexec⟩

/-! ### The causes of a fault (R191, R193) -/

/-- A byte of an instruction that lies at `pc` is a cell of memory. -/
theorem State.Holds.byte {s : State} {i : Instr} (h : s.Holds i) {k : Nat} {b : Byte} (hb : (encode i)[k]? = some b) :
    s.pc.toNat + k ≤ 255 ∧ s.mem.read (s.pc.toNat + k) = b := by
  obtain ⟨hlen, hbytes⟩ := h
  obtain ⟨hk, -⟩ := List.getElem?_eq_some_iff.1 hb
  exact ⟨by omega, Option.some.inj ((hbytes k hk).symm.trans hb)⟩

/-- A register-index byte is the first operand byte, or the second of MUL, ADD or CMP (R80). -/
theorem regByte_position {i : Instr} {b : Byte} (h : b ∈ i.regBytes) :
    ((encode i)[1]? = some b ∧ (encode i)[0]? ≠ some 0x01 ∧ (encode i)[0]? ≠ some 0x11) ∨
      ((encode i)[2]? = some b ∧
        ((encode i)[0]? = some 0xA2 ∨ (encode i)[0]? = some 0xA0 ∨ (encode i)[0]? = some 0xA7)) := by
  cases i with
  | hlt | ret => cases h
  | ldi | prn | push | pop | call | jmp | jeq | jne =>
    rw [List.mem_singleton.1 h]
    exact .inl (by simp [encode])
  | mul | add | cmp =>
    rcases List.mem_pair.1 h with rfl | rfl
    · exact .inl (by simp [encode])
    · exact .inr (by simp [encode])

/-- Every way a fetch can fault (R111 to R113). -/
theorem fetch_error_cases {s : State} {f : FaultRecord} (h : fetch s = .error f) :
    (255 < s.pc.toNat ∧ f = .outOfBounds s.pc.toNat) ∨
    (s.pc.toNat ≤ 255 ∧ s.mem.read s.pc.toNat ∉ definedOpcodes ∧
      f = .illegalInstruction (s.mem.read s.pc.toNat) s.pc.toNat) ∨
    (s.pc.toNat ≤ 255 ∧ s.mem.read s.pc.toNat ∈ definedOpcodes ∧
      256 < s.pc.toNat + 1 + operandCount (s.mem.read s.pc.toNat) ∧ f = .outOfBounds 256) := by
  have hdef : ∀ F, opcodeForm (s.mem.read s.pc.toNat) = some F → s.mem.read s.pc.toNat ∈ definedOpcodes := by
    intro F ho
    by_contra hop
    simp [opcodeForm_eq_none.2 hop] at ho
  rcases fetch_cases s with ⟨hpc, hf⟩ | ⟨hpc, hop, hf⟩ | ⟨i, -, -, hf⟩ | ⟨mk, ho, ⟨hpc, hf⟩ | ⟨-, hf⟩⟩ |
    ⟨mk, ho, ⟨hpc, hf⟩ | ⟨-, hf⟩⟩ <;> rw [hf] at h <;> cases h
  · exact .inl ⟨hpc, rfl⟩
  · exact .inr (.inl ⟨hpc, hop, rfl⟩)
  · exact .inr (.inr ⟨by omega, hdef _ ho, by rw [operandCount_of_one ho]; omega, rfl⟩)
  · exact .inr (.inr ⟨by omega, hdef _ ho, by rw [operandCount_of_two ho]; omega, rfl⟩)

/-- HLT and RET count no operand byte (R87). -/
theorem ne_of_operandCount_pos {op : Byte} (h : 0 < operandCount op) : op ≠ 0x01 ∧ op ≠ 0x11 := by
  constructor <;> rintro rfl <;> exact absurd h (by decide)

/-- The opcodes that count two operand bytes (R87). -/
theorem opcode_of_operandCount_two : ∀ op ∈ definedOpcodes, operandCount op = 2 →
    op = 0x82 ∨ op = 0xA2 ∨ op = 0xA0 ∨ op = 0xA7 := by decide

/-- The fault an instruction records, where none was recorded before: a bad register index, or a cause of its own. -/
theorem Ends.fault_cause {i : Instr} {s t : State} {f : FaultRecord} (h : Ends s i t) (hs : s.fault = none)
    (ht : t.fault = some f) :
    (∃ b ∈ i.regBytes, 7 < b.toNat ∧ f = .outOfBounds b.toNat) ∨
    (∃ r : Reg, (i = .push r.byte ∨ i = .call r.byte) ∧ s.x .sp = 0 ∧ f = .outOfBounds (-1)) ∨
    (∃ r : Reg, i = .call r.byte ∧ 255 < s.pc.toNat + 2 ∧ f = .outOfBounds (s.pc.toNat + 2 : Nat)) ∨
    (i = .ret ∧ s.x .sp = 255 ∧ f = .outOfBounds 256) ∨
    (∃ r : Reg, i = .pop r.byte ∧ (if r = .sp then s.mem.read (s.x .sp).toNat else s.x .sp) = 255 ∧
      f = .outOfBounds 256) := by
  cases h with
  | badIndex i b hb h7 => exact .inl ⟨b, hb, h7, (Option.some.inj ht).symm⟩
  | pushAtZero r h0 => exact .inr (.inl ⟨r, .inl rfl, h0, (Option.some.inj ht).symm⟩)
  | callAtZero r h0 => exact .inr (.inl ⟨r, .inr rfl, h0, (Option.some.inj ht).symm⟩)
  | callAtTop r _ hpc => exact .inr <| .inr <| .inl ⟨r, rfl, hpc, (Option.some.inj ht).symm⟩
  | retAtTop h0 => exact .inr <| .inr <| .inr <| .inl ⟨rfl, h0, (Option.some.inj ht).symm⟩
  | popAtTop r h0 => exact .inr <| .inr <| .inr <| .inr ⟨r, rfl, h0, (Option.some.inj ht).symm⟩
  | hlt | ldi | prn | mul | add | push | pop | call | ret | cmp | jmp => exact absurd (hs.symm.trans ht) nofun
  | jeq | jne => split at ht <;> exact absurd (hs.symm.trans ht) nofun

/-- Settles O16: a fault of the fetch is one of the first four causes, one of the instruction one of the last six,
its opcode and operand bytes read off memory at `pc`. -/
theorem everyRecordedFaultHasItsCause : Obligations.EveryRecordedFaultHasItsCause := by
  intro s t f hrun hnone hstep hfault
  dsimp only
  obtain ⟨-, ⟨f', hf, rfl⟩ | ⟨i, hf, -, hends⟩⟩ := step_next hstep
  · obtain rfl : f' = f := Option.some.inj hfault
    rcases fetch_error_cases hf with ⟨hpc, rfl⟩ | ⟨hpc, hop, rfl⟩ | ⟨hpc, hop, habove, rfl⟩
    · exact .inr (.inl ⟨hpc, rfl⟩)
    · exact .inl ⟨hpc, hop, rfl⟩
    · have hle := operandCount_le_two _ hop
      rcases Nat.lt_or_ge 254 s.pc.toNat with htop | htop
      · obtain ⟨hne1, hne2⟩ := ne_of_operandCount_pos (op := s.mem.read s.pc.toNat) (by omega)
        exact .inr <| .inr <| .inl ⟨by omega, hop, hne1, hne2, rfl⟩
      · exact .inr <| .inr <| .inr <| .inl ⟨by omega, opcode_of_operandCount_two _ hop (by omega), rfl⟩
  · have hholds := fetch_eq_ok_iff.1 hf
    obtain ⟨-, hop⟩ := hholds.opcode
    rcases hends.fault_cause hnone hfault with ⟨b, hb, h7, rfl⟩ | ⟨r, hi, h0, rfl⟩ | ⟨r, rfl, hpc, rfl⟩ |
      ⟨rfl, h0, rfl⟩ | ⟨r, rfl, h0, rfl⟩
    · rcases regByte_position hb with ⟨hb1, hne1, hne2⟩ | ⟨hb2, hop2⟩
      · obtain ⟨hpc1, rfl⟩ := hholds.byte hb1
        rw [hholds.opcode?] at hne1 hne2
        exact .inr <| .inr <| .inr <| .inr <| .inl ⟨by omega, hop, mt (congrArg _) hne1, mt (congrArg _) hne2, h7, rfl⟩
      · obtain ⟨hpc2, rfl⟩ := hholds.byte hb2
        simp only [hholds.opcode?, Option.some.injEq] at hop2
        exact .inr <| .inr <| .inr <| .inr <| .inr <| .inl ⟨by omega, hop2, h7, rfl⟩
    · obtain ⟨hpc, hstack⟩ : s.pc.toNat ≤ 254 ∧ (s.mem.read s.pc.toNat = 0x45 ∨ s.mem.read s.pc.toNat = 0x50) := by
        rcases hi with rfl | rfl
        · exact ⟨by have := (hholds.byte (k := 1) rfl).1; omega, .inl (hholds.byte (k := 0) rfl).2⟩
        · exact ⟨by have := (hholds.byte (k := 1) rfl).1; omega, .inr (hholds.byte (k := 0) rfl).2⟩
      exact .inr <| .inr <| .inr <| .inr <| .inr <| .inr <| .inl ⟨hpc, hstack, h0, rfl⟩
    · have hpc1 := (hholds.byte (k := 1) rfl).1
      have htop : s.pc.toNat = 254 := by omega
      exact .inr <| .inr <| .inr <| .inr <| .inr <| .inr <| .inr <| .inl
        ⟨htop, (hholds.byte (k := 0) rfl).2, by rw [htop]; rfl⟩
    · obtain ⟨hpc, hret⟩ := hholds.byte (k := 0) rfl
      exact .inr <| .inr <| .inr <| .inr <| .inr <| .inr <| .inr <| .inr <| .inl ⟨hpc, hret, h0, rfl⟩
    · obtain ⟨hpc1, hb1⟩ := hholds.byte (k := 1) rfl
      have hpop := (hholds.byte (k := 0) rfl).2
      refine .inr <| .inr <| .inr <| .inr <| .inr <| .inr <| .inr <| .inr <| .inr ⟨by omega, hpop, ?_, rfl⟩
      simpa only [hb1, Reg.byte_inj] using h0

end Sys2Proof.Machine
end

section
/-! LDI, PRN and the text the sink shows (41_load_and_print.md). -/

namespace Sys2Proof.Machine

/-! ### LDI -/

theorem opcodeForm_ldi {s : State} (hop : s.mem.read s.pc.toNat = 0x82) :
    opcodeForm (s.mem.read s.pc.toNat) = some (.two .ldi) := by rw [hop]; rfl

/-- Settles O18: LDI's own equation; and, with its opcode at `pc`, an operand byte beyond 255, a bad index byte, or the
instruction the three bytes make. -/
theorem ldiLoadsTheImmediate : Obligations.LdiLoadsTheImmediate := by
  refine ⟨fun s r v => ⟨_, execLdi_reg r v s, by simp, fun q hq => by simp [hq], rfl, fun _ => rfl, rfl, rfl, rfl⟩,
    fun s hrun hpc hop => ?_⟩
  have hform := opcodeForm_ldi hop
  split
  · next htop => exact step_of_fetch_error hrun (fetch_two_top (by omega) hform)
  · next htop =>
    have hstep := step_of_fetch hrun (fetch_two (by omega) hform)
    split
    · next hbad => exact hstep.trans (execLdi_fault hbad _ s)
    · exact hstep

/-! ### PRN -/

/-- Settles O19, from PRN's own equation. -/
theorem prnEmitsTheRegister : Obligations.PrnEmitsTheRegister :=
  fun s r => ⟨_, execPrn_reg r s, rfl, fun _ => rfl, rfl, fun _ => rfl, rfl, rfl⟩

/-! ### The sink (R131, D12) -/

/-- A digit's character is an ASCII digit. -/
theorem digitChar_toNat : ∀ n < 10, (digitChar n).toNat = 48 + n := by decide

/-- Reading a numeral as the statement does gives the value of its digits. -/
theorem foldl_digitChar {ds : List Nat} (h : ∀ d ∈ ds, d < 10) (n : Nat) :
    (ds.map digitChar).foldl (fun n c => 10 * n + (c.toNat - 48)) n = ds.foldl (fun n d => 10 * n + d) n := by
  induction ds generalizing n with
  | nil => rfl
  | cons d ds ih =>
    obtain ⟨hd, hds⟩ := List.forall_mem_cons.1 h
    rw [List.map_cons, List.foldl_cons, List.foldl_cons, digitChar_toNat d hd, Nat.add_sub_cancel_left, ih hds]

/-- The numeral of a byte as a list of digits: one, two or three of them by the size of the byte, none leading that is 0
where there is more than one. -/
theorem decimal_eq_map_digitChar (v : Byte) : ∃ ds : List Nat, decimal v = ds.map digitChar ∧ ds ≠ [] ∧
    (∀ d ∈ ds, d < 10) ∧ ds.foldl (fun n d => 10 * n + d) 0 = v.toNat ∧ (ds.length > 1 → ds.head? ≠ some 0) := by
  have hv := v.isLt
  simp only [decimal]
  split
  · next h => exact ⟨[v.toNat], rfl, by simp, by simpa using h, by simp, by simp⟩
  · split
    · next h => exact ⟨[v.toNat / 10, v.toNat % 10], rfl, by simp, by simp; omega, by simp; omega, by simp; omega⟩
    · next h =>
      exact ⟨[v.toNat / 100, v.toNat / 10 % 10, v.toNat % 10], rfl, by simp, by simp; omega, by simp; omega,
        by simp; omega⟩

/-- The sink shows a stream value by value. -/
theorem sinkText_append (o p : List Byte) : sinkText (o ++ p) = sinkText o ++ sinkText p := by
  induction o with
  | nil => rfl
  | cons v o ih => simp [sinkText, ih]

/-- Settles O20: the numeral through its digits, the lines by appending streams. -/
theorem sinkShowsDecimalLines : Obligations.SinkShowsDecimalLines := by
  refine ⟨fun v => ?_, fun o v => by simp [sinkText_append, sinkText]⟩
  obtain ⟨ds, hds, hne, hlt, hvalue, hhead⟩ := decimal_eq_map_digitChar v
  rw [hds]
  refine ⟨(foldl_digitChar hlt 0).trans hvalue, by simpa using hne, fun c hc => ?_, fun hlen h0 => ?_⟩
  · obtain ⟨d, hd, rfl⟩ := List.mem_map.1 hc
    have := hlt d hd
    rw [digitChar_toNat d this]
    omega
  · rw [List.length_map] at hlen
    obtain ⟨d, hd, hzero⟩ : ∃ d, ds.head? = some d ∧ digitChar d = '0' := by simpa using h0
    have hchar := digitChar_toNat d (hlt d (List.mem_of_head? hd))
    rw [hzero] at hchar
    obtain rfl : d = 0 := (Nat.add_left_cancel (n := 48) hchar).symm
    exact hhead hlen hd

end Sys2Proof.Machine
end

section
/-! MUL and ADD (42_arithmetic.md): their results, and the laws of rule R142 on results of instructions. -/

namespace Sys2Proof.Machine

/-- ADD as addition of bytes (R141, R142). -/
theorem exec_add (ra rb : Reg) (s : State) :
    exec (.add ra.byte rb.byte) s = .next ((s.setX ra (s.x ra + s.x rb)).advance 3) := by
  rw [← mod256_add]
  exact execAdd_reg ra rb s

/-- MUL as multiplication of bytes (R140, R142). -/
theorem exec_mul (ra rb : Reg) (s : State) :
    exec (.mul ra.byte rb.byte) s = .next ((s.setX ra (s.x ra * s.x rb)).advance 3) := by
  rw [← mod256_mul]
  exact execMul_reg ra rb s

/-- Settles O21, from MUL's own equation. -/
theorem mulWritesTheLowProduct : Obligations.MulWritesTheLowProduct :=
  fun s ra rb => ⟨_, exec_mul ra rb s, by simp [BitVec.toNat_mul], fun q hq => by simp [hq], rfl,
    fun _ => rfl, rfl, rfl, rfl⟩

/-- Settles O22, from ADD's own equation. -/
theorem addWritesTheLowSum : Obligations.AddWritesTheLowSum :=
  fun s ra rb => ⟨_, exec_add ra rb s, by simp [BitVec.toNat_add], fun q hq => by simp [hq], rfl,
    fun _ => rfl, rfl, rfl, rfl⟩

/-- Settles O23: each law is that law of bytes. -/
theorem arithmeticLaws : Obligations.ArithmeticLaws := by
  refine fun s ra rb => ⟨?commAdd, ?commMul, fun h0 => ?zero, fun h1 => ?one, fun hne k hk => ?undo⟩
  case commAdd => exact ⟨_, _, exec_add ra rb s, exec_add rb ra s, by simp [BitVec.add_comm]⟩
  case commMul => exact ⟨_, _, exec_mul ra rb s, exec_mul rb ra s, by simp [BitVec.mul_comm]⟩
  case zero => exact ⟨_, _, exec_add ra rb s, by simp [h0], exec_mul ra rb s, by simp [h0]⟩
  case one => exact ⟨_, exec_mul ra rb s, by simp [h1]⟩
  case undo =>
    refine ⟨_, _, exec_add ra rb s, exec_add ra rb _, ?_⟩
    simp [hne, hk]

/-- Settles O54: the registers an instruction overwrites are not read again, so that each sequence computes the
expression of bytes it is written as. -/
theorem arithmeticAssociatesAndDistributes : Obligations.ArithmeticAssociatesAndDistributes := by
  refine fun s ra rb rc hab => ⟨fun hac => ?assocAdd, fun hac => ?assocMul, fun hbc => ?distrib⟩
  case assocAdd =>
    refine ⟨_, _, _, _, exec_add ra rb s, exec_add ra rc _, exec_add rb rc s, exec_add ra rb _, ?_⟩
    simp [hab, hac.symm, BitVec.add_assoc]
  case assocMul =>
    refine ⟨_, _, _, _, exec_mul ra rb s, exec_mul ra rc _, exec_mul rb rc s, exec_mul ra rb _, ?_⟩
    simp [hab, hac.symm, BitVec.mul_assoc]
  case distrib =>
    refine ⟨_, _, _, _, _, exec_add rb rc s, exec_mul ra rb _, exec_mul rb ra s, exec_mul rc ra _, exec_add rb rc _, ?_⟩
    simp [hab, hbc, hbc.symm, BitVec.mul_add, BitVec.mul_comm]

end Sys2Proof.Machine
end

section
/-! PUSH and POP (43_stack.md), CALL and RET (44_call_return.md): results, frames, and the two laws. -/

namespace Sys2Proof.Machine

/-! ### PUSH and POP -/

/-- Settles O24, from PUSH's own equation. -/
theorem pushStoresBelowTheStackPointer : Obligations.PushStoresBelowTheStackPointer :=
  fun s r h => ⟨_, execPush_reg r h, by simpa using toNat_sub_one h, fun q hq => by simp [hq], by simp,
    fun a ha => Memory.read_write_other _ _ ha, rfl, rfl, rfl, rfl⟩

/-- Settles O25, from POP's own equation. -/
theorem popLoadsFromTheStackPointer : Obligations.PopLoadsFromTheStackPointer := by
  intro s r h
  refine ⟨_, execPop_reg r h, fun hr => ?_, fun hr => ?_, fun q hqr hqsp => by simp [hqr, hqsp], fun _ => rfl, rfl, rfl,
    rfl, rfl⟩
  · rw [if_neg hr] at h
    exact ⟨by simp [hr], by simpa [hr] using toNat_add_one h⟩
  · rw [if_pos hr] at h
    simpa [hr] using toNat_add_one h

/-- Settles O26: each end of the stack pointer's range has its fault. -/
theorem stackPointerNeverWraps : Obligations.StackPointerNeverWraps :=
  fun _ r => ⟨fun h => ⟨execPush_zero r h, execCall_zero r h⟩, fun h hr => execPop_top r (by rwa [if_neg hr]),
    fun h => execPop_top .sp (by rwa [if_pos rfl]), execRet_top⟩

/-- A decrement that is not from 0 does not reach 255. -/
theorem sub_one_ne_top {b : Byte} (h : b ≠ 0) : b - 1 ≠ 255 := by
  intro e
  have hb := toNat_sub_one h
  rw [e] at hb
  exact absurd b.isLt (by simp [← hb])

/-- Settles O27: POP reads the cell PUSH wrote and undoes its decrement; for R7 the cell holds that pointer. -/
theorem pushThenPopRestores : Obligations.PushThenPopRestores := by
  intro s r h
  have hpush : exec (.push r.byte) s = _ := execPush_reg r h
  have hpop := sub_one_ne_top h
  refine ⟨_, _, hpush, execPop_reg r ?_, fun q => ?_, ?_, rfl, rfl, rfl⟩
  · by_cases hr : r = .sp <;> simpa [hr] using hpop
  · by_cases hq : q = .sp
    · by_cases hr : r = .sp <;> simp [hq, hr]
    · by_cases hr : q = r
      · subst hr
        simp [hq]
      · simp [hq, hr]
  · simp [BitVec.add_assoc]

/-! ### CALL and RET -/

/-- A return address within memory is kept whole in its byte (R160). -/
theorem toNat_returnAddress {n : Nat} (h : n ≤ 255) : (BitVec.ofNat 8 n).toNat = n := by
  rw [BitVec.toNat_ofNat, Nat.mod_eq_of_lt (by omega)]

/-- Settles O29, from CALL's own equation. -/
theorem callPushesTheReturnAddress : Obligations.CallPushesTheReturnAddress := by
  intro s r h hpc
  refine ⟨_, execCall_reg r h hpc, by simpa using toNat_sub_one h, fun q hq => by simp [hq], ?_,
    fun a ha => Memory.read_write_other _ _ ha, by simp, rfl, rfl, rfl⟩
  rw [State.setPc_mem, State.setMem_mem, Memory.read_write_same, toNat_returnAddress hpc]

/-- Settles O30. -/
theorem callFaultsOnItsReturnAddress : Obligations.CallFaultsOnItsReturnAddress :=
  fun _ r h hpc => execCall_top r h hpc

/-- Settles O31, from RET's own equation. -/
theorem retPopsTheProgramCounter : Obligations.RetPopsTheProgramCounter :=
  fun s h => ⟨_, execRet_ok h, by simp, by simpa using toNat_add_one h, fun q hq => by simp [hq],
    fun _ => rfl, rfl, rfl, rfl⟩

/-- Settles O32: RET finds the decremented stack pointer, so it can increment it, and takes the address in its cell. -/
theorem callThenRetReturns : Obligations.CallThenRetReturns := by
  intro s r h hpc
  obtain ⟨t, hcall, hsp, -, hcell, -⟩ := callPushesTheReturnAddress s r h hpc
  have htsp : t.x .sp = s.x .sp - 1 := by
    have hs := toNat_sub_one h
    exact BitVec.eq_of_toNat_eq (by omega)
  refine ⟨t, hcall, fun u husp hucell => ?_⟩
  have htop : u.x .sp ≠ 255 := by
    rw [husp, htsp]
    exact sub_one_ne_top h
  obtain ⟨v, hret, hvpc, hvsp, hregs, -⟩ := retPopsTheProgramCounter u htop
  refine ⟨v, hret, ?_, BitVec.eq_of_toNat_eq ?_, hregs⟩
  · rw [hvpc, husp, hucell, htsp, hcell]
  · rw [hvsp, husp, hsp]

end Sys2Proof.Machine
end

section
/-! CMP, JMP, JEQ and JNE (45_compare_branch.md). -/

namespace Sys2Proof.Machine

/-! ### CMP (R170) -/

theorem compareFlags_of_eq {a b : Byte} (h : a.toNat = b.toNat) : compareFlags a b = 0x01 :=
  if_pos (BitVec.eq_of_toNat_eq h)

theorem compareFlags_of_lt {a b : Byte} (h : a.toNat < b.toNat) : compareFlags a b = 0x04 := by
  rw [compareFlags, if_neg (fun e => by simp [e] at h), if_pos h]
  rfl

theorem compareFlags_of_gt {a b : Byte} (h : a.toNat > b.toNat) : compareFlags a b = 0x02 := by
  rw [compareFlags, if_neg (fun e => by simp [e] at h), if_neg (by omega)]
  rfl

/-- Settles O33, from CMP's own equation and the pattern of each relation. -/
theorem cmpWritesOnePattern : Obligations.CmpWritesOnePattern :=
  fun s ra rb => ⟨_, execCmp_reg ra rb s, fun h => by simp [compareFlags_of_eq h],
    fun h => by simp [compareFlags_of_lt h], fun h => by simp [compareFlags_of_gt h], fun q hq => by simp [hq], rfl,
    fun _ => rfl, rfl, rfl, rfl⟩

/-! ### The jumps (R171 to R173) -/

theorem opcodeForm_jmp {s : State} (hop : s.mem.read s.pc.toNat = 0x54) :
    opcodeForm (s.mem.read s.pc.toNat) = some (.one .jmp) := by rw [hop]; rfl

/-- Settles O34: JMP's own equation; and, with its opcode at `pc`, an operand byte beyond 255, a bad index byte, or the
instruction the two bytes make. -/
theorem jmpGoesToTheRegister : Obligations.JmpGoesToTheRegister := by
  refine ⟨fun s r => ⟨_, execJmp_reg r s, zext9_toNat _, fun _ => rfl, fun _ => rfl, rfl, rfl, rfl⟩,
    fun s hrun hpc hop => ?_⟩
  have hform := opcodeForm_jmp hop
  split
  · next htop => exact step_of_fetch_error hrun (fetch_one_top htop hform)
  · next htop =>
    have hstep := step_of_fetch hrun (fetch_one (by omega) hform)
    split
    · next hbad => exact hstep.trans (execJmp_fault hbad s)
    · exact hstep

theorem exec_jeq_set (r : Reg) {s : State} (h : s.equalFlag = true) :
    exec (.jeq r.byte) s = .next (s.setPc (zext9 (s.x r))) :=
  (execJeq_reg r s).trans (by rw [h]; rfl)

theorem exec_jeq_clear (r : Reg) {s : State} (h : s.equalFlag = false) :
    exec (.jeq r.byte) s = .next (s.advance 2) :=
  (execJeq_reg r s).trans (by rw [h]; rfl)

theorem exec_jne_set (r : Reg) {s : State} (h : s.equalFlag = true) :
    exec (.jne r.byte) s = .next (s.advance 2) :=
  (execJne_reg r s).trans (by rw [h]; rfl)

theorem exec_jne_clear (r : Reg) {s : State} (h : s.equalFlag = false) :
    exec (.jne r.byte) s = .next (s.setPc (zext9 (s.x r))) :=
  (execJne_reg r s).trans (by rw [h]; rfl)

/-- Settles O35, by the two values of the flag. -/
theorem jeqJumpsOnBitZero : Obligations.JeqJumpsOnBitZero := by
  intro s r
  cases h : s.equalFlag with
  | true =>
    exact ⟨_, exec_jeq_set r h, fun _ => zext9_toNat _, fun h0 => absurd (h.symm.trans h0) nofun, fun _ => rfl,
      fun _ => rfl, rfl, rfl, rfl⟩
  | false =>
    exact ⟨_, exec_jeq_clear r h, fun h1 => absurd (h.symm.trans h1) nofun, fun _ => rfl, fun _ => rfl,
      fun _ => rfl, rfl, rfl, rfl⟩

/-- Settles O36, by the two values of the flag. -/
theorem jneJumpsOnBitZeroClear : Obligations.JneJumpsOnBitZeroClear := by
  intro s r
  cases h : s.equalFlag with
  | true =>
    exact ⟨_, exec_jne_set r h, fun h0 => absurd (h.symm.trans h0) nofun, fun _ => rfl, fun _ => rfl,
      fun _ => rfl, rfl, rfl, rfl⟩
  | false =>
    exact ⟨_, exec_jne_clear r h, fun _ => zext9_toNat _, fun h1 => absurd (h.symm.trans h1) nofun, fun _ => rfl,
      fun _ => rfl, rfl, rfl, rfl⟩

/-! ### A comparison and the jump after it (R174) -/

/-- Of the three patterns only E has bit 0 set (R31). -/
theorem compareFlags_getLsbD_zero (a b : Byte) : (compareFlags a b).getLsbD 0 = decide (a = b) := by
  unfold compareFlags
  split
  · next h => simp [h, flagEqual]
  · next h => split <;> simp [h, flagLess, flagGreater]

/-- After a CMP the flag JEQ and JNE test says whether the values were equal (R174). -/
theorem equalFlag_setX_compareFlags (s : State) (a b : Byte) (n : Nat) :
    ((s.setX .fl (compareFlags a b)).advance n).equalFlag = decide (a = b) := by
  rw [State.equalFlag, State.x_advance, State.x_setX, if_pos rfl, compareFlags_getLsbD_zero]

/-- Settles O37: the flag after CMP, and the flag 0 of reset. -/
theorem compareThenBranch : Obligations.CompareThenBranch := by
  refine ⟨fun s ra rb r => ?_, fun s r h0 => ?_⟩
  · have hflag := equalFlag_setX_compareFlags s (s.x ra) (s.x rb) 3
    have hcmp : exec (.cmp ra.byte rb.byte) s = _ := execCmp_reg ra rb s
    split
    · next heq =>
      rw [decide_eq_true heq] at hflag
      exact ⟨_, _, _, hcmp, exec_jeq_set r hflag, exec_jne_set r hflag, zext9_toNat _, rfl⟩
    · next hne =>
      rw [decide_eq_false hne] at hflag
      exact ⟨_, _, _, hcmp, exec_jeq_clear r hflag, exec_jne_clear r hflag, rfl, zext9_toNat _⟩
  · have hflag : s.equalFlag = false := by simp [State.equalFlag, h0]
    exact ⟨_, _, exec_jeq_clear r hflag, exec_jne_clear r hflag, rfl, zext9_toNat _⟩

end Sys2Proof.Machine
end

section
/-! What each instruction writes, and what its next state depends on: registers (10_state.md section 2), `pc`
(section 3), memory (20_memory.md section 1), the output stream (10_state.md section 6). -/

namespace Sys2Proof.Machine

/-! ### The program counter (R29) -/

/-- An instruction that lies in memory and does not fault leaves `pc` as R29's table says. -/
theorem Ends.pcAfter {i : Instr} {s t : State} (h : Ends s i t) (hlen : s.pc.toNat + (encode i).length ≤ 256)
    (ht : t.runState ≠ .faulted) : PcAfter i s t := by
  have h3 : s.pc.toNat + 3 < 512 := by omega
  have h2 : s.pc.toNat + 2 < 512 := by omega
  cases h with
  | badIndex | pushAtZero | callAtZero | callAtTop | popAtTop | retAtTop => exact absurd rfl ht
  | hlt => rfl
  | ldi | mul | add | cmp => exact State.advance_pc_toNat h3
  | prn | push | pop => exact State.advance_pc_toNat h2
  | call r _ hpc =>
    refine ⟨⟨r, rfl, by simp⟩, ?_⟩
    rw [State.setPc_mem, State.setMem_mem, State.x_setPc, State.x_setMem, State.x_setX, if_pos rfl,
      Memory.read_write_same, toNat_returnAddress hpc]
  | ret => exact zext9_toNat _
  | jmp r => exact ⟨r, rfl, zext9_toNat _⟩
  | jeq r =>
    refine ⟨r, rfl, ?_⟩
    change _ = if s.equalFlag then _ else _
    split
    · exact zext9_toNat _
    · exact State.advance_pc_toNat h2
  | jne r =>
    refine ⟨r, rfl, ?_⟩
    change _ = if s.equalFlag then _ else _
    split
    · exact State.advance_pc_toNat h2
    · exact zext9_toNat _

/-- Settles O39: a fault leaves `pc` alone, and otherwise R29's table holds. -/
theorem programCounterTable : Obligations.ProgramCounterTable := by
  refine ⟨fun i s t hrun hlen h => ⟨fun ht => ?_, (ends_of_exec h).pcAfter hlen⟩, fun s t h ht => ?_⟩
  · obtain ⟨f, rfl⟩ := (ends_of_exec h).eq_takeFault (by simp [hrun]) ht
    rfl
  · obtain ⟨f, rfl⟩ := eq_takeFault_of_step h ht
    rfl

/-! ### Writes -/

/-- An instruction leaves every register outside its "writes" columns alone (R25). -/
theorem Ends.x_of_not_writes {i : Instr} {s t : State} (h : Ends s i t) {q : Reg} (hq : ¬ WritesReg i q) :
    t.x q = s.x q := by
  cases h with
  | hlt | badIndex | pushAtZero | callAtZero | callAtTop | popAtTop | retAtTop | prn | jmp => rfl
  | ldi r | mul r | add r =>
    have : q ≠ r := fun e => hq (congrArg Reg.byte e.symm)
    simp [this]
  | push | call | ret =>
    have : q ≠ .sp := hq
    simp [this]
  | pop r =>
    obtain ⟨hr, hsp⟩ := not_or.1 hq
    have : q ≠ r := fun e => hr (congrArg Reg.byte e.symm)
    have : q ≠ .sp := hsp
    simp [*]
  | cmp =>
    have : q ≠ .fl := hq
    simp [this]
  | jeq | jne => split <;> rfl

/-- Only a PUSH or CALL with the stack pointer above 0 writes memory, and only the cell below the pointer (R52). -/
theorem Ends.mem_cases {i : Instr} {s t : State} (h : Ends s i t) : t.mem = s.mem ∨
    ((∃ b, i = .push b ∨ i = .call b) ∧ s.x .sp ≠ 0 ∧ ∃ v, t.mem = s.mem.write (s.x .sp - 1).toNat v) := by
  cases h with
  | hlt | badIndex | pushAtZero | callAtZero | callAtTop | popAtTop | retAtTop => exact .inl rfl
  | ldi | prn | mul | add | pop | ret | cmp | jmp => exact .inl rfl
  | push r h0 => exact .inr ⟨⟨_, .inl rfl⟩, h0, _, rfl⟩
  | call r h0 => exact .inr ⟨⟨_, .inr rfl⟩, h0, _, rfl⟩
  | jeq | jne => exact .inl (by split <;> rfl)

/-- Only PRN emits, and one value (R37). -/
theorem Ends.out_cases {i : Instr} {s t : State} (h : Ends s i t) :
    t.out = s.out ∨ ∃ r : Reg, i = .prn r.byte ∧ t.out = s.out ++ [s.x r] := by
  cases h with
  | hlt | badIndex | pushAtZero | callAtZero | callAtTop | popAtTop | retAtTop => exact .inl rfl
  | ldi | mul | add | push | pop | call | ret | cmp | jmp => exact .inl rfl
  | prn r => exact .inr ⟨r, rfl, rfl⟩
  | jeq | jne => exact .inl (by split <;> rfl)

/-! ### The same instruction from two states -/

/-- With legal operands `Ends` determines what `exec` answers. -/
theorem exec_of_ends {i : Instr} {s t : State} (hi : i.wellFormed = true) (h : Ends s i t) : exec i s = .next t := by
  cases h with
  | badIndex i b hb h7 =>
    have hlegal : b.toNat ≤ 7 := of_decide_eq_true (List.all_eq_true.1 hi b hb)
    omega
  | hlt => exact execHlt_eq s
  | pushAtZero r h0 => exact execPush_zero r h0
  | callAtZero r h0 => exact execCall_zero r h0
  | callAtTop r h0 hpc => exact execCall_top r h0 hpc
  | popAtTop r h0 => exact execPop_top r h0
  | retAtTop h0 => exact execRet_top h0
  | ldi r v => exact execLdi_reg r v s
  | prn r => exact execPrn_reg r s
  | mul ra rb => exact execMul_reg ra rb s
  | add ra rb => exact execAdd_reg ra rb s
  | push r h0 => exact execPush_reg r h0
  | pop r h0 => exact execPop_reg r h0
  | call r h0 hpc => exact execCall_reg r h0 hpc
  | ret h0 => exact execRet_ok h0
  | cmp ra rb => exact execCmp_reg ra rb s
  | jmp r => exact execJmp_reg r s
  | jeq r => exact execJeq_reg r s
  | jne r => exact execJne_reg r s

theorem lt_of_not_regByteLegal {b : Byte} (h : [b].all regByteLegal ≠ true) : 7 < b.toNat := by
  simpa [regByteLegal] using h

theorem regByteLegal_byte (r : Reg) : regByteLegal r.byte = true := by cases r <;> rfl

theorem regIndexes_error_of_not_legal {b c : Byte} (h : [b, c].all regByteLegal ≠ true) :
    ∃ f, regIndexes b c = .error f := by
  rcases regIndexes_cases b c with ⟨r, q, rfl, rfl⟩ | ⟨-, hf⟩ | ⟨-, -, -, hf⟩
  · exact absurd (by simp [regByteLegal_byte]) h
  · exact ⟨_, hf⟩
  · exact ⟨_, hf⟩

/-- An instruction with a bad register index takes one and the same fault from every state (R114). -/
theorem exec_of_not_wellFormed {i : Instr} (hi : i.wellFormed ≠ true) :
    ∃ f, ∀ s, exec i s = .next (s.takeFault f) := by
  cases i with
  | hlt | ret => exact absurd rfl hi
  | ldi b v => exact ⟨_, execLdi_fault (lt_of_not_regByteLegal hi) v⟩
  | prn b => exact ⟨_, execPrn_fault (lt_of_not_regByteLegal hi)⟩
  | push b => exact ⟨_, execPush_fault (lt_of_not_regByteLegal hi)⟩
  | pop b => exact ⟨_, execPop_fault (lt_of_not_regByteLegal hi)⟩
  | call b => exact ⟨_, execCall_fault (lt_of_not_regByteLegal hi)⟩
  | jmp b => exact ⟨_, execJmp_fault (lt_of_not_regByteLegal hi)⟩
  | jeq b => exact ⟨_, execJeq_fault (lt_of_not_regByteLegal hi)⟩
  | jne b => exact ⟨_, execJne_fault (lt_of_not_regByteLegal hi)⟩
  | mul b c =>
    obtain ⟨f, hf⟩ := regIndexes_error_of_not_legal hi
    exact ⟨f, fun s => (execTwoRegs_fault hf s).1⟩
  | add b c =>
    obtain ⟨f, hf⟩ := regIndexes_error_of_not_legal hi
    exact ⟨f, fun s => (execTwoRegs_fault hf s).2.1⟩
  | cmp b c =>
    obtain ⟨f, hf⟩ := regIndexes_error_of_not_legal hi
    exact ⟨f, fun s => (execTwoRegs_fault hf s).2.2⟩

/-- To compare an instruction's runs from `s` and from `s'` it is enough to compare a fault taken in both, and to find
for each way to end from `s` one from `s'`. -/
theorem exec_pair {R : State → State → Prop} (i : Instr) (s s' : State)
    (hfault : ∀ f, R (s.takeFault f) (s'.takeFault f))
    (hends : ∀ t, Ends s i t → ∃ u, Ends s' i u ∧ R t u) :
    ∃ t u, exec i s = .next t ∧ exec i s' = .next u ∧ R t u := by
  by_cases hi : i.wellFormed = true
  · obtain ⟨t, ht, he⟩ := exec_ends i s
    obtain ⟨u, hu, hR⟩ := hends t he
    exact ⟨t, u, ht, exec_of_ends hi hu, hR⟩
  · obtain ⟨f, hf⟩ := exec_of_not_wellFormed hi
    exact ⟨_, _, hf s, hf s', hfault f⟩

/-! ### Registers that are not read (R25) -/

theorem State.setX_setX_same (s : State) (r : Reg) (v w : Byte) : (s.setX r v).setX r w = s.setX r w := by
  cases r <;> rfl

theorem State.setX_comm (s : State) {r q : Reg} (h : r ≠ q) (v w : Byte) :
    (s.setX q v).setX r w = (s.setX r w).setX q v := by
  have hregs : (s.regs.set q v).set r w = (s.regs.set r w).set q v := by
    refine RegFile.ext_get fun p => ?_
    simp only [RegFile.get_set]
    by_cases hp : p = r
    · simp [hp, h]
    · simp [hp]
  simp only [State.setX, hregs]

/-- The end `u` of a run that was started with `v` in `q` instead of what `s` holds there, against the end `t` of the
run from `s`: the same state, or the same but for the `v` still in `q`, which `t` has not written either. -/
def SameButFor (s : State) (q : Reg) (v : Byte) (t u : State) : Prop := u = t ∨ (u = t.setX q v ∧ t.x q = s.x q)

section

variable {s t u : State} {q : Reg} {v : Byte}

theorem SameButFor.start : SameButFor s q v s (s.setX q v) := .inr ⟨rfl, rfl⟩

/-- A register write makes the two ends agree in that register and keeps the relation elsewhere. -/
theorem SameButFor.setX (h : SameButFor s q v t u) (r : Reg) (w : Byte) :
    SameButFor s q v (t.setX r w) (u.setX r w) := by
  rcases h with rfl | ⟨rfl, hx⟩
  · exact .inl rfl
  · by_cases hr : r = q
    · subst hr
      exact .inl (State.setX_setX_same t r v w)
    · exact .inr ⟨State.setX_comm t hr v w, by simpa [Ne.symm hr] using hx⟩

/-- Updates of another item of state keep the relation. -/
theorem SameButFor.map {f : State → State} (h : SameButFor s q v t u) (hcomm : ∀ t, f (t.setX q v) = (f t).setX q v)
    (hx : ∀ t, (f t).x q = t.x q) : SameButFor s q v (f t) (f u) := by
  rcases h with rfl | ⟨rfl, ht⟩
  · exact .inl rfl
  · exact .inr ⟨hcomm t, (hx t).trans ht⟩

theorem SameButFor.advance (h : SameButFor s q v t u) (n : Nat) : SameButFor s q v (t.advance n) (u.advance n) :=
  h.map (f := (State.advance · n)) (fun _ => rfl) fun _ => rfl

theorem SameButFor.setPc (h : SameButFor s q v t u) (p : Pc) : SameButFor s q v (t.setPc p) (u.setPc p) :=
  h.map (f := (State.setPc · p)) (fun _ => rfl) fun _ => rfl

theorem SameButFor.setMem (h : SameButFor s q v t u) (m : Memory) : SameButFor s q v (t.setMem m) (u.setMem m) :=
  h.map (f := (State.setMem · m)) (fun _ => rfl) fun _ => rfl

theorem SameButFor.emit (h : SameButFor s q v t u) (w : Byte) : SameButFor s q v (t.emit w) (u.emit w) :=
  h.map (f := (State.emit · w)) (fun _ => rfl) fun _ => rfl

/-- Every way to end from `s` has its counterpart from the state with another value in a register that is not read. -/
theorem Ends.setX_unread {i : Instr} (hq : ¬ ReadsReg i s q) (h : Ends s i t) :
    ∃ u, Ends (s.setX q v) i u ∧ SameButFor s q v t u := by
  have hx : ∀ r : Reg, q ≠ r → (s.setX q v).x r = s.x r := fun r hr => by simp [Ne.symm hr]
  have start : SameButFor s q v s (s.setX q v) := .start
  have fault : ∀ f, SameButFor s q v (s.takeFault f) ((s.setX q v).takeFault f) := fun _ => .inr ⟨rfl, rfl⟩
  cases h with
  | hlt => exact ⟨_, .hlt, .inr ⟨rfl, rfl⟩⟩
  | badIndex _ b hb h7 => exact ⟨_, .badIndex _ b hb h7, fault _⟩
  | pushAtZero r h0 =>
    obtain ⟨-, hsp⟩ := not_or.1 hq
    exact ⟨_, .pushAtZero r ((hx _ hsp).trans h0), fault _⟩
  | callAtZero r h0 =>
    obtain ⟨-, hsp⟩ := not_or.1 hq
    exact ⟨_, .callAtZero r ((hx _ hsp).trans h0), fault _⟩
  | callAtTop r h0 hpc =>
    obtain ⟨-, hsp⟩ := not_or.1 hq
    exact ⟨_, .callAtTop r (by rwa [hx _ hsp]) hpc, fault _⟩
  | popAtTop r h0 => exact ⟨_, .popAtTop r (by rwa [hx _ hq]), fault _⟩
  | retAtTop h0 => exact ⟨_, .retAtTop ((hx _ hq).trans h0), fault _⟩
  | ldi r w => exact ⟨_, .ldi r w, (start.setX r w).advance 3⟩
  | prn r =>
    have hr : q ≠ r := fun e => hq (congrArg Reg.byte e.symm)
    have hend := Ends.prn (s := s.setX q v) r
    rw [hx r hr] at hend
    exact ⟨_, hend, (start.emit _).advance 2⟩
  | mul ra rb =>
    obtain ⟨ha, hb⟩ : q ≠ ra ∧ q ≠ rb := by simpa [ReadsReg, eq_comm] using hq
    have hend := Ends.mul (s := s.setX q v) ra rb
    rw [hx ra ha, hx rb hb] at hend
    exact ⟨_, hend, (start.setX ra _).advance 3⟩
  | add ra rb =>
    obtain ⟨ha, hb⟩ : q ≠ ra ∧ q ≠ rb := by simpa [ReadsReg, eq_comm] using hq
    have hend := Ends.add (s := s.setX q v) ra rb
    rw [hx ra ha, hx rb hb] at hend
    exact ⟨_, hend, (start.setX ra _).advance 3⟩
  | cmp ra rb =>
    obtain ⟨ha, hb⟩ : q ≠ ra ∧ q ≠ rb := by simpa [ReadsReg, eq_comm] using hq
    have hend := Ends.cmp (s := s.setX q v) ra rb
    rw [hx ra ha, hx rb hb] at hend
    exact ⟨_, hend, (start.setX .fl _).advance 3⟩
  | push r h0 =>
    obtain ⟨hr, hsp⟩ : q ≠ r ∧ q ≠ .sp := by simpa [ReadsReg, eq_comm] using hq
    have hend := Ends.push (s := s.setX q v) r (by rwa [hx _ hsp])
    rw [hx r hr, hx _ hsp] at hend
    exact ⟨_, hend, ((start.setX .sp _).setMem _).advance 2⟩
  | pop r h0 =>
    have hend := Ends.pop (s := s.setX q v) r (by rwa [hx _ hq])
    rw [hx _ hq] at hend
    exact ⟨_, hend, ((start.setX r _).setX .sp _).advance 2⟩
  | call r h0 hpc =>
    obtain ⟨hr, hsp⟩ : q ≠ r ∧ q ≠ .sp := by simpa [ReadsReg, eq_comm] using hq
    have hend := Ends.call (s := s.setX q v) r (by rwa [hx _ hsp]) hpc
    rw [hx r hr, hx _ hsp] at hend
    exact ⟨_, hend, ((start.setX .sp _).setMem _).setPc _⟩
  | ret h0 =>
    have hend := Ends.ret (s := s.setX q v) (by rwa [hx _ hq])
    rw [hx _ hq] at hend
    exact ⟨_, hend, (start.setX .sp _).setPc _⟩
  | jmp r =>
    have hr : q ≠ r := fun e => hq (congrArg Reg.byte e.symm)
    have hend := Ends.jmp (s := s.setX q v) r
    rw [hx r hr] at hend
    exact ⟨_, hend, start.setPc _⟩
  | jeq r =>
    obtain ⟨hfl, htaken⟩ := not_or.1 hq
    have hflag : (s.setX q v).equalFlag = s.equalFlag := congrArg (BitVec.getLsbD · 0) (hx _ hfl)
    have hend := Ends.jeq (s := s.setX q v) r
    rw [hflag] at hend
    refine ⟨_, hend, ?_⟩
    split
    · next hset =>
      rw [hx r fun e => htaken ⟨hset, congrArg Reg.byte e.symm⟩]
      exact start.setPc _
    · exact start.advance 2
  | jne r =>
    obtain ⟨hfl, htaken⟩ := not_or.1 hq
    have hflag : (s.setX q v).equalFlag = s.equalFlag := congrArg (BitVec.getLsbD · 0) (hx _ hfl)
    have hend := Ends.jne (s := s.setX q v) r
    rw [hflag] at hend
    refine ⟨_, hend, ?_⟩
    split
    · exact start.advance 2
    · next hclear =>
      rw [hx r fun e => htaken ⟨Bool.eq_false_iff.2 hclear, congrArg Reg.byte e.symm⟩]
      exact start.setPc _

end

/-- Settles O38: the frame of `Ends` for the writes, and for the reads a run from the state with the other value. -/
theorem registerReadWriteTable : Obligations.RegisterReadWriteTable := by
  refine ⟨fun i s t q h hne => ?_, fun i s q v hq => ?_⟩
  · by_contra hw
    exact hne ((ends_of_exec h).x_of_not_writes hw)
  · obtain ⟨t, u, ht, hu, hR⟩ := exec_pair (R := SameButFor s q v) i s (s.setX q v) (fun _ => .inr ⟨rfl, rfl⟩)
      fun _ he => he.setX_unread hq
    refine ⟨t, u, ht, hu, ?_⟩
    rcases hR with rfl | ⟨rfl, hx⟩
    · exact ⟨rfl, rfl, rfl, rfl, rfl, fun _ _ => rfl, .inl rfl⟩
    · exact ⟨rfl, rfl, rfl, rfl, rfl, fun p hp => by simp [hp], .inr ⟨by simp, hx⟩⟩

end Sys2Proof.Machine
end

section
/-! What reaches memory and the output stream (20_memory.md sections 1 and 7, 10_state.md section 6), and the run that
does not end (40_dispatch_and_halt.md rule R118). -/

namespace Sys2Proof.Machine

/-! ### Memory (R52) -/

/-- The end of a run from another memory: what `t` holds in every item of state but memory. -/
def SameButMem (t u : State) : Prop := ∃ m, u = t.setMem m

/-- Only POP and RET look at memory, at the stack pointer: every way to end has its counterpart from a memory that
agrees there. -/
theorem Ends.setMem {i : Instr} {s t : State} {m : Memory}
    (hm : (∃ b, i = .pop b) ∨ i = .ret → m.read (s.x .sp).toNat = s.mem.read (s.x .sp).toNat) (h : Ends s i t) :
    ∃ u, Ends (s.setMem m) i u ∧ SameButMem t u := by
  cases h with
  | hlt => exact ⟨_, .hlt, m, rfl⟩
  | badIndex _ b hb h7 => exact ⟨_, .badIndex _ b hb h7, m, rfl⟩
  | pushAtZero r h0 => exact ⟨_, .pushAtZero r h0, m, rfl⟩
  | callAtZero r h0 => exact ⟨_, .callAtZero r h0, m, rfl⟩
  | callAtTop r h0 hpc => exact ⟨_, .callAtTop r h0 hpc, m, rfl⟩
  | retAtTop h0 => exact ⟨_, .retAtTop h0, m, rfl⟩
  | ldi r v => exact ⟨_, .ldi r v, m, rfl⟩
  | prn r => exact ⟨_, .prn r, m, rfl⟩
  | mul ra rb => exact ⟨_, .mul ra rb, m, rfl⟩
  | add ra rb => exact ⟨_, .add ra rb, m, rfl⟩
  | cmp ra rb => exact ⟨_, .cmp ra rb, m, rfl⟩
  | jmp r => exact ⟨_, .jmp r, m, rfl⟩
  | push r h0 => exact ⟨_, .push r h0, _, rfl⟩
  | call r h0 hpc => exact ⟨_, .call r h0 hpc, _, rfl⟩
  | popAtTop r h0 =>
    rw [← hm (.inl ⟨_, rfl⟩)] at h0
    exact ⟨_, .popAtTop r h0, m, rfl⟩
  | pop r h0 =>
    rw [← hm (.inl ⟨_, rfl⟩)] at h0 ⊢
    exact ⟨_, .pop (s := s.setMem m) r h0, m, rfl⟩
  | ret h0 =>
    rw [← hm (.inr rfl)]
    exact ⟨_, .ret (s := s.setMem m) h0, m, rfl⟩
  | jeq r =>
    refine ⟨_, .jeq r, m, ?_⟩
    rw [apply_ite (State.setMem · m)]
    rfl
  | jne r =>
    refine ⟨_, .jne r, m, ?_⟩
    rw [apply_ite (State.setMem · m)]
    rfl

/-- Settles O40: the frame of `Ends` for the writes, and for the reads a run from the other memory. -/
theorem memoryAccessTable : Obligations.MemoryAccessTable := by
  refine ⟨fun i s t a h hne => ?_, fun i s m hm => ?_⟩
  · rcases (ends_of_exec h).mem_cases with hmem | ⟨hi, hsp, v, hmem⟩
    · exact absurd (by rw [hmem]) hne
    · refine ⟨hi, hsp, ?_⟩
      by_contra ha
      exact hne (by rw [hmem, Memory.read_write_other _ _ ha])
  · obtain ⟨t, u, ht, hu, m', rfl⟩ := exec_pair (R := SameButMem) i s (s.setMem m) (fun _ => ⟨m, rfl⟩)
      fun _ he => he.setMem hm
    exact ⟨t, _, ht, hu, rfl, rfl, rfl, rfl, rfl⟩

/-! ### The output stream (R37) -/

/-- The state with `o` emitted before what it has emitted itself. -/
def State.behindOut (s : State) (o : List Byte) : State := { s with out := o ++ s.out }

/-- No instruction looks at the stream: every way to end has its counterpart behind any earlier output. -/
theorem Ends.behindOut {i : Instr} {s t : State} (o : List Byte) (h : Ends s i t) :
    Ends (s.behindOut o) i (t.behindOut o) := by
  cases h with
  | hlt => exact .hlt
  | badIndex _ b hb h7 => exact .badIndex (s := s.behindOut o) _ b hb h7
  | pushAtZero r h0 => exact .pushAtZero (s := s.behindOut o) r h0
  | callAtZero r h0 => exact .callAtZero (s := s.behindOut o) r h0
  | callAtTop r h0 hpc => exact .callAtTop (s := s.behindOut o) r h0 hpc
  | popAtTop r h0 => exact .popAtTop (s := s.behindOut o) r h0
  | retAtTop h0 => exact .retAtTop (s := s.behindOut o) h0
  | ldi r v => exact .ldi (s := s.behindOut o) r v
  | prn r =>
    have hend := Ends.prn (s := s.behindOut o) r
    simp only [State.emit, State.behindOut, List.append_assoc] at hend
    exact hend
  | mul ra rb => exact .mul (s := s.behindOut o) ra rb
  | add ra rb => exact .add (s := s.behindOut o) ra rb
  | push r h0 => exact .push (s := s.behindOut o) r h0
  | pop r h0 => exact .pop (s := s.behindOut o) r h0
  | call r h0 hpc => exact .call (s := s.behindOut o) r h0 hpc
  | ret h0 => exact .ret (s := s.behindOut o) h0
  | cmp ra rb => exact .cmp (s := s.behindOut o) ra rb
  | jmp r => exact .jmp (s := s.behindOut o) r
  | jeq r =>
    rw [apply_ite (State.behindOut · o)]
    exact .jeq (s := s.behindOut o) r
  | jne r =>
    rw [apply_ite (State.behindOut · o)]
    exact .jne (s := s.behindOut o) r

/-- Nor does the fetch, so a step behind earlier output is the step without it. -/
theorem step_behindOut {s t : State} (o : List Byte) (h : step s = .next t) :
    step (s.behindOut o) = .next (t.behindOut o) := by
  obtain ⟨hrun, ⟨f, hf, rfl⟩ | ⟨i, hf, hexec, -⟩⟩ := step_next h
  · exact step_of_fetch_error (s := s.behindOut o) hrun hf
  · obtain ⟨t', u, ht, hu, rfl⟩ := exec_pair (R := fun t u => u = t.behindOut o) i s (s.behindOut o) (fun _ => rfl)
      fun t he => ⟨_, he.behindOut o, rfl⟩
    rw [hexec] at ht
    cases ht
    exact (step_of_fetch (s := s.behindOut o) hrun hf).trans hu

/-- A step emits nothing, or it is a PRN and emits its register (R37). -/
theorem out_of_step {s t : State} (h : step s = .next t) : t.out = s.out ∨
    ∃ r : Reg, t.out = s.out ++ [s.x r] ∧ s.mem.read s.pc.toNat = 0x47 ∧ s.mem.read (s.pc.toNat + 1) = r.byte := by
  obtain ⟨-, ⟨f, -, rfl⟩ | ⟨i, hf, -, hends⟩⟩ := step_next h
  · exact .inl rfl
  · rcases hends.out_cases with hout | ⟨r, rfl, hout⟩
    · exact .inl hout
    · have hholds := fetch_eq_ok_iff.1 hf
      exact .inr ⟨r, hout, (hholds.byte (k := 0) rfl).2, (hholds.byte (k := 1) rfl).2⟩

/-- Settles O41: the state itself is the one with nothing emitted, behind its own output. -/
theorem outputIsAppendOnly : Obligations.OutputIsAppendOnly := by
  intro s t h
  have hself : State.behindOut { s with out := [] } s.out = s := by simp [State.behindOut]
  refine ⟨?_, out_of_step h⟩
  have hstep := step_behindOut s.out h
  rwa [hself] at hstep

/-! ### Fetch coherence (20_memory.md section 7) -/

/-- A running engine runs the one-operand instruction whose two bytes lie at `pc`. -/
theorem step_of_one {s : State} {mk : Byte → Instr} {b : Byte} (hrun : s.runState = .running) (hpc : s.pc.toNat ≤ 254)
    (hform : opcodeForm (s.mem.read s.pc.toNat) = some (.one mk)) (hb : s.mem.read (s.pc.toNat + 1) = b) :
    step s = exec (mk b) s := by
  rw [← hb]
  exact step_of_fetch hrun (fetch_one (by omega) hform)

/-- Settles O42: PUSH wrote its register to the cell `pc` then addresses, and the next fetch reads it there. -/
theorem pushedByteIsFetchedNext : Obligations.PushedByteIsFetchedNext := by
  intro s r hrun hpc hr hop hb hsp
  have h0 : s.x .sp ≠ 0 := fun e => by simp [e] at hsp
  obtain ⟨t, hexec, -, -, hcell, -, htpc, htrun, -⟩ := pushStoresBelowTheStackPointer s r h0
  have hdec := toNat_sub_one h0
  have hpc2 : t.pc.toNat = s.pc.toNat + 2 := by
    rw [htpc]
    exact State.advance_pc_toNat (n := 2) (by omega)
  have hread : t.mem.read t.pc.toNat = s.x r := by
    rw [if_neg hr] at hcell
    rw [← hcell]
    congr 1
    omega
  refine ⟨t, (step_of_one hrun (by omega) (by rw [hop]; rfl) hb).trans hexec, hpc2, fun hbad => ?_, fun hhlt => ?_⟩
  · rw [← hpc2, ← hread]
    exact step_illegal (htrun.trans hrun) (by omega) (by rwa [hread])
  · rw [step_of_fetch (htrun.trans hrun) (fetch_eq_hlt (by omega) (hread.trans hhlt))]
    exact execHlt_eq t

/-! ### A run that does not end (R118) -/

theorem runFor_succ_of_step {s t : State} (h : step s = .next t) (fuel : Nat) :
    runFor (fuel + 1) s = runFor fuel t := by
  rw [runFor, h]

/-- A state that steps to itself is where its run stays. -/
theorem runFor_of_step_self {s : State} (h : step s = .next s) (fuel : Nat) : runFor fuel s = s := by
  induction fuel with
  | zero => rfl
  | succ fuel ih => rw [runFor_succ_of_step h, ih]

/-- Settles O43: the jump sets `pc` to what it was, so the state stays, and it is Running. -/
theorem jumpToItselfNeverEnds : Obligations.JumpToItselfNeverEnds := by
  intro s r hrun hpc hop hb hself
  have htarget : zext9 (s.x r) = s.pc := BitVec.eq_of_toNat_eq ((zext9_toNat _).trans hself)
  have hstep : step s = .next s := by
    rw [step_of_one hrun hpc (opcodeForm_jmp hop) hb]
    exact (execJmp_reg r s).trans (by rw [htarget]; rfl)
  refine ⟨hstep, fun t ⟨fuel, hend, hstop⟩ => hstop ?_⟩
  rw [← hend, runFor_of_step_self hstep, hrun]

end Sys2Proof.Machine
end

section
/-! Reset and the host's operations (70_reset_and_hazards.md). -/

namespace Sys2Proof.Machine

/-- An accepted load places the bytes and changes nothing else (R232). -/
theorem hostLoad_ok {s : State} {bytes : List Byte} (hready : s.runState = .ready) (hlen : bytes.length ≤ 256) :
    hostLoad bytes s = .ok (s.setMem (s.mem.writeBytes 0 bytes)) := by
  rw [hostLoad, if_neg (by simp [hready]), if_neg (by simp only [Config.memSize]; omega)]

/-- A load succeeds only in Ready, and only as `hostLoad_ok` says. -/
theorem eq_of_hostLoad {s t : State} {bytes : List Byte} (h : hostLoad bytes s = .ok t) :
    s.runState = .ready ∧ t = s.setMem (s.mem.writeBytes 0 bytes) := by
  unfold hostLoad at h
  split at h
  · cases h
  · next hready =>
    split at h
    · cases h
    · cases h
      exact ⟨not_not.1 hready, rfl⟩

theorem Memory.read_writeBytes_zero {m : Memory} {bs : List Byte} (h : bs.length ≤ 256) (a : Nat) :
    (m.writeBytes 0 bs).read a = (bs[a]?).getD (m.read a) := by
  rw [Memory.read_writeBytes m 0 bs (by omega), if_pos (Nat.zero_le a), Nat.sub_zero]

/-- Settles O45: the guard of `load`, and the cells after its writes. -/
theorem loadPlacesTheBytes : Obligations.LoadPlacesTheBytes := by
  refine fun s bytes => ⟨fun hready hlen => ⟨_, hostLoad_ok hready hlen, fun a b hb => ?_, fun a ha => ?_, rfl, rfl,
    hready, rfl, rfl⟩, fun hready hlen => ?_, fun hready => if_pos hready⟩
  · rw [State.setMem_mem, Memory.read_writeBytes_zero hlen, hb, Option.getD_some]
  · rw [State.setMem_mem, Memory.read_writeBytes_zero hlen, List.getElem?_eq_none ha, Option.getD_none]
  · rw [hostLoad, if_neg (by simp [hready]), if_pos hlen]

theorem hostRun_ready {s : State} (h : s.runState = .ready) : hostRun s = { s with runState := .running } := by
  simp [hostRun, h]

theorem hostRun_not_ready {s : State} (h : s.runState ≠ .ready) : hostRun s = s := by
  unfold hostRun
  split
  · next hready => exact absurd hready h
  all_goals rfl

/-- Settles O46. -/
theorem runAndReset : Obligations.RunAndReset :=
  fun _ => ⟨hostRun_ready, fun h => hostRun_not_ready (by rcases h with h | h <;> simp [h]), rfl⟩

/-- Settles O47: `load` placed the instruction at address 0, where `pc` is after reset. -/
theorem loadedProgramStartsAtZero : Obligations.LoadedProgramStartsAtZero := by
  intro i rest hlen
  refine ⟨_, hostLoad_ok rfl hlen, step_of_holds rfl ⟨?_, fun k hk => ?_⟩⟩
  · have := encode_length_le_three i
    change 0 + (encode i).length ≤ 256
    omega
  · change _ = some ((State.reset.mem.writeBytes 0 (encode i ++ rest)).read (0 + k))
    rw [Nat.zero_add, Memory.read_writeBytes_zero hlen, List.getElem?_append_left hk, List.getElem?_eq_getElem hk]
    rfl

/-- Settles O48: the byte 0 at address 0 is undefined. -/
theorem emptyRunFaults : Obligations.EmptyRunFaults :=
  step_illegal (s := hostRun State.reset) rfl (by decide) (by decide)

end Sys2Proof.Machine
end

section
/-! The invariant of the engine (log 5), and how a run ends (40_dispatch_and_halt.md rule R118, 60_exceptions.md section
5). -/

namespace Sys2Proof.Machine

/-! ### The clauses of the invariant -/

/-- Outside Faulted no fault is recorded (R35). -/
theorem State.Inv.fault_eq_none {s : State} (h : s.Inv) (hs : s.runState ≠ .faulted) : s.fault = none := by
  obtain ⟨-, -, hrecord, -⟩ := h
  unfold State.recordFits at hrecord
  split at hrecord
  · assumption
  · exact absurd (of_decide_eq_true hrecord).1 hs
  · exact absurd (of_decide_eq_true hrecord).1 hs

/-- In Faulted a fault is recorded (R35). -/
theorem State.Inv.exists_fault {s : State} (h : s.Inv) (hs : s.runState = .faulted) : ∃ f, s.fault = some f := by
  obtain ⟨-, -, hrecord, -⟩ := h
  cases hf : s.fault with
  | some f => exact ⟨f, rfl⟩
  | none =>
    simp only [State.recordFits, hf] at hrecord
    exact absurd hs (of_decide_eq_true hrecord)

/-- In Halted `pc` is at a HLT byte (R116). -/
theorem State.Inv.halted {s : State} (h : s.Inv) (hs : s.runState = .halted) :
    s.pc.toNat ≤ 255 ∧ s.mem.read s.pc.toNat = 0x01 := by
  obtain ⟨-, -, -, hhalt⟩ := h
  exact of_decide_eq_true hhalt hs

/-- Outside Faulted the invariant asks of the record only that there is none. -/
theorem State.inv_of_fault_eq_none {s : State} (hmem : s.mem.wf) (hpc : s.pc.toNat ≤ 256) (hnone : s.fault = none)
    (hs : s.runState ≠ .faulted) (hhalt : s.runState = .halted → s.pc.toNat ≤ 255 ∧ s.mem.read s.pc.toNat = 0x01) :
    s.Inv := by
  refine ⟨hmem, hpc, ?_, decide_eq_true hhalt⟩
  simp [State.recordFits, hnone, hs]

/-- Taking an `OutOfBounds` of R194's range keeps the invariant. -/
theorem State.inv_takeFault_outOfBounds {s : State} (hmem : s.mem.wf) (hpc : s.pc.toNat ≤ 256) {a : Int}
    (ha : a = -1 ∨ (8 ≤ a ∧ a ≤ 256)) : (s.takeFault (.outOfBounds a)).Inv :=
  ⟨hmem, hpc, decide_eq_true ⟨rfl, ha⟩, decide_eq_true nofun⟩

/-- Taking the fault of an undefined byte at `pc` keeps the invariant. -/
theorem State.inv_takeFault_illegal {s : State} (hmem : s.mem.wf) (hpc : s.pc.toNat ≤ 255)
    (hop : s.mem.read s.pc.toNat ∉ definedOpcodes) :
    (s.takeFault (.illegalInstruction (s.mem.read s.pc.toNat) s.pc.toNat)).Inv :=
  ⟨hmem, Nat.le_succ_of_le hpc, decide_eq_true ⟨rfl, rfl, hpc, rfl, hop⟩, decide_eq_true nofun⟩

/-! ### Every step keeps it -/

/-- A fault of the fetch keeps the invariant. -/
theorem State.Inv.takeFault_of_fetch {s : State} {f : FaultRecord} (h : s.Inv) (hf : fetch s = .error f) :
    (s.takeFault f).Inv := by
  obtain ⟨hmem, hpc, -, -⟩ := h
  rcases fetch_error_cases hf with ⟨habove, rfl⟩ | ⟨hpc, hop, rfl⟩ | ⟨-, -, -, rfl⟩
  · exact State.inv_takeFault_outOfBounds hmem hpc (.inr (by omega))
  · exact State.inv_takeFault_illegal hmem hpc hop
  · exact State.inv_takeFault_outOfBounds hmem hpc (.inr (by decide))

/-- No instruction breaks memory's canonical form. -/
theorem Ends.mem_wf {i : Instr} {s t : State} (h : Ends s i t) (hmem : s.mem.wf) : t.mem.wf := by
  rcases h.mem_cases with hm | ⟨-, -, v, hm⟩
  · rwa [hm]
  · rw [hm]
    exact Memory.wf_write hmem (s.x .sp - 1).isLt v

/-- R29's table keeps `pc` within 0 to 256: a sum reaches at most the end of memory, a jump goes to a byte. -/
theorem pc_le_of_pcAfter {i : Instr} {s t : State} (h : PcAfter i s t) (hlen : s.pc.toNat + (encode i).length ≤ 256) :
    t.pc.toNat ≤ 256 := by
  cases i with
  | hlt =>
    have : t.pc = s.pc := h
    rw [this]
    omega
  | ldi | prn | mul | add | push | pop | cmp => exact (show t.pc.toNat = _ from h).le.trans hlen
  | call =>
    obtain ⟨⟨r, -, hpc⟩, -⟩ := h
    have := (t.x r).isLt
    omega
  | ret =>
    have hpc : t.pc.toNat = (s.mem.read (s.x .sp).toNat).toNat := h
    have := (s.mem.read (s.x .sp).toNat).isLt
    omega
  | jmp =>
    obtain ⟨r, -, hpc⟩ := h
    have := (s.x r).isLt
    omega
  | jeq | jne =>
    obtain ⟨r, -, hpc⟩ := h
    have := (s.x r).isLt
    simp only [encode, List.length_cons, List.length_nil] at hlen
    split at hpc <;> omega

/-- An instruction that was fetched keeps the invariant of a running engine. -/
theorem State.Inv.of_ends {i : Instr} {s t : State} (h : s.Inv) (hrun : s.runState = .running) (hf : fetch s = .ok i)
    (hends : Ends s i t) : t.Inv := by
  have hnone := h.fault_eq_none (by simp [hrun])
  have hlen := fetch_ok_length hf
  obtain ⟨hmem, hpc, -, -⟩ := h
  rcases hends.outcome with ⟨a, rfl, ha⟩ | ⟨rfl, rfl⟩ | ⟨-, hstate, hfault⟩
  · exact State.inv_takeFault_outOfBounds hmem hpc (ha hlen)
  · exact State.inv_of_fault_eq_none hmem hpc hnone nofun fun _ => fetch_hlt hf
  · have hnf : t.runState ≠ .faulted := by simp [hstate, hrun]
    exact State.inv_of_fault_eq_none (hends.mem_wf hmem) (pc_le_of_pcAfter (hends.pcAfter hlen hnf) hlen)
      (hfault.trans hnone) hnf (by simp [hstate, hrun])

/-- A step keeps the invariant. -/
theorem State.Inv.step {s t : State} (h : s.Inv) (hstep : step s = .next t) : t.Inv := by
  obtain ⟨hrun, ⟨f, hf, rfl⟩ | ⟨i, hf, -, hends⟩⟩ := step_next hstep
  · exact h.takeFault_of_fetch hf
  · exact h.of_ends hrun hf hends

/-- Settles O50. -/
theorem everyStepKeepsTheInvariant : Obligations.EveryStepKeepsTheInvariant := fun _ _ => State.Inv.step

/-! ### Reset and the host's operations keep it -/

/-- Settles O49. -/
theorem invariantHoldsAtReset : Obligations.InvariantHoldsAtReset :=
  State.inv_of_fault_eq_none Memory.wf_reset (Nat.zero_le _) rfl nofun nofun

/-- Settles O51: a load changes memory of a Ready engine, `run()` the run state of one, and reset is the reset state. -/
theorem hostOperationsKeepTheInvariant : Obligations.HostOperationsKeepTheInvariant := by
  refine fun s h => ⟨fun bytes t hload => ?_, ?_, invariantHoldsAtReset⟩
  · obtain ⟨hready, rfl⟩ := eq_of_hostLoad hload
    have hnone := h.fault_eq_none (by simp [hready])
    obtain ⟨hmem, hpc, -, -⟩ := h
    exact State.inv_of_fault_eq_none (Memory.wf_writeBytes hmem 0 bytes) hpc hnone (by simp [hready]) (by simp [hready])
  · by_cases hready : s.runState = .ready
    · have hnone := h.fault_eq_none (by simp [hready])
      obtain ⟨hmem, hpc, -, -⟩ := h
      rw [hostRun_ready hready]
      exact State.inv_of_fault_eq_none hmem hpc hnone nofun nofun
    · rwa [hostRun_not_ready hready]

/-! ### The end of a run (R118, R201) -/

/-- A run stays where the engine has no step. -/
theorem runFor_of_not_running {s : State} (h : s.runState ≠ .running) (fuel : Nat) : runFor fuel s = s := by
  cases fuel with
  | zero => rfl
  | succ fuel =>
    rw [runFor]
    split
    · next t ht => exact absurd ht (step_not_running h)
    · rfl
    · rfl

/-- A running engine has a step (R110). -/
theorem exists_step_of_running {s : State} (h : s.runState = .running) : ∃ t, step s = .next t := by
  obtain ⟨t, ht, -⟩ := (stepOutcomes s).1 h
  exact ⟨t, ht⟩

/-- What every step keeps holds at every point of a run. -/
theorem runFor_induction {P : State → Prop} (hstep : ∀ s t, P s → step s = .next t → P t) (fuel : Nat) {s : State}
    (h : P s) : P (runFor fuel s) := by
  induction fuel generalizing s with
  | zero => exact h
  | succ fuel ih =>
    by_cases hrun : s.runState = .running
    · obtain ⟨t, ht⟩ := exists_step_of_running hrun
      rw [runFor_succ_of_step ht]
      exact ih (hstep s t h ht)
    · rwa [runFor_of_not_running hrun]

/-- No step leads back to Ready. -/
theorem runState_ne_ready_of_step {s t : State} (h : step s = .next t) : t.runState ≠ .ready := by
  obtain ⟨hrun, -⟩ := step_next h
  obtain ⟨u, hu, hcases⟩ := (stepOutcomes s).1 hrun
  rw [h] at hu
  cases hu
  rcases hcases with ⟨ht, -⟩ | ⟨rfl, -⟩ | ⟨f, rfl⟩
  · simp [ht]
  · exact nofun
  · exact nofun

/-- Settles O52: along a run the invariant holds and the engine is not Ready, so a run that has stopped is Halted or
Faulted, with what the invariant says there. -/
theorem howARunEnds : Obligations.HowARunEnds := by
  rintro s t hinv hrun ⟨fuel, rfl, hstop⟩
  have hready : (runFor fuel s).runState ≠ .ready :=
    runFor_induction (P := fun s => s.runState ≠ .ready) (fun _ _ _ => runState_ne_ready_of_step) fuel (by simp [hrun])
  have hinv' : (runFor fuel s).Inv := runFor_induction (P := State.Inv) (fun _ _ h => h.step) fuel hinv
  cases hs : (runFor fuel s).runState with
  | ready => exact absurd hs hready
  | running => exact absurd hs hstop
  | halted => exact .inl ⟨rfl, hinv'.fault_eq_none (by simp [hs]), hinv'.halted hs⟩
  | faulted => exact .inr ⟨rfl, hinv'.exists_fault hs⟩

/-- Two runs of one state that have both stopped have stopped in the same state: the step is a function. -/
theorem RunEnds.unique {s t u : State} (ht : RunEnds s t) (hu : RunEnds s u) : t = u := by
  obtain ⟨m, hm, htstop⟩ := ht
  obtain ⟨n, hn, hustop⟩ := hu
  induction m generalizing s n with
  | zero =>
    obtain rfl : s = t := hm
    rw [← hn, runFor_of_not_running htstop]
  | succ m ih =>
    by_cases hrun : s.runState = .running
    · obtain ⟨s', hs'⟩ := exists_step_of_running hrun
      cases n with
      | zero =>
        obtain rfl : s = u := hn
        exact absurd hrun hustop
      | succ n =>
        rw [runFor_succ_of_step hs'] at hm hn
        exact ih hm n hn
    · rw [← hm, ← hn, runFor_of_not_running hrun, runFor_of_not_running hrun]

/-- Settles O53. -/
theorem aSuccessfulRunNeverFaults : Obligations.ASuccessfulRunNeverFaults := by
  refine ⟨fun s t u => RunEnds.unique, fun s t ⟨u, hu, hhalt⟩ ht => ?_⟩
  rw [ht.unique hu, hhalt]

end Sys2Proof.Machine
end
